-- ==== Sys2Proof/Word.lean ====
section
/-! DEFINITION. The word types of NMP4 and nothing else: bytes, 32-bit addresses and masks, the command word, the two
port widths, register indexes and the sibling option flags. What is computed on them stands in Sys2Proof/Machine/. -/

namespace Sys2Proof

/-- A byte of a buffer: 8 bits (00 R7). -/
abbrev Byte := BitVec 8

/-- An IPv4 address as its 32-bit unsigned value (00 R9). -/
abbrev Addr := BitVec 32

/-- The 32 bits of a network mask (10 R27). -/
abbrev Mask := BitVec 32

/-- The command word `CW`, bit 0 least significant (00 R8, 30 R81). -/
abbrev CmdWord := BitVec 32

/-- The operand data port `DIN` (00 R7, 20 R66). -/
abbrev DinWord := BitVec 128

/-- The iterator's address counter, wide enough for 2^32 (10 R40). -/
abbrev Cursor := BitVec 33

/-- The 8-bit status register `ST` (10 R33). -/
abbrev Status := BitVec 8

/-- An index into the buffer register file or into the mask register file: 0..7 (30 R83). Which file it selects is fixed by
the instruction's constructor. -/
abbrev RegIdx := Fin 8

/-- The source's SiblingOptions, a set of independent flags (30 R85): a flag that is not set excludes its category. -/
structure SibOpts where
  /-- `opts[0]`, `IS` of 42 R164. -/
  includeSelf : Bool
  /-- `opts[1]`, `IB` of 42 R164. -/
  includeBroadcast : Bool
  /-- `opts[2]`, `IN` of 42 R164. -/
  includeNetId : Bool
deriving DecidableEq, Repr

end Sys2Proof
end

