-- ==== Sys2Proof/Config.lean ====
section
/-! DEFINITION. The implementation parameters of 00 R7, at the values this hardware takes. NMP4 leaves no value open
(93_implementation_defined.md, part 1), so there is no free value here. -/

namespace Sys2Proof.Config

/-- `BUFMAX`: the longest buffer a buffer register holds, in bytes (00 R7). -/
def bufMax : Nat := 16

/-- `MASKBYTES`: the bytes of a mask and of an IPv4 address (00 R7). -/
def maskBytes : Nat := 4

/-- `MASKBITS`: the bits of a mask and of an IPv4 address (00 R7). -/
def maskBits : Nat := 32

end Sys2Proof.Config
end

