-- ==== Sys2Proof/Machine/State.lean ====
section
/-! DEFINITION. The state of NMP4 as plain data: the whole list of 10 R20, and the host's side of the ports, which the
spec calls inputs and not state (00 R14), held here because a step is a function of the state alone. -/

namespace Sys2Proof.Machine

/-- The error kinds of 60 R210. -/
inductive ErrorKind where
  | invalidArgument
  | unsupported
  | illegalCommand
deriving DecidableEq, Repr

/-- The sibling iterator `IT` while it is active (10 R40). An inactive iterator holds nothing a command can read
(10 R40, R43), so it is the absence of this record (log entry 7). -/
structure Iter where
  /-- Network identifier of the subnet being enumerated. -/
  net : Addr
  /-- Broadcast address of that subnet. -/
  bcast : Addr
  /-- The reference address given to `SSTART`. -/
  self : Addr
  /-- The option flags given to `SSTART`. -/
  opts : SibOpts
  /-- The next candidate address, 0 .. 2^32. -/
  cur : Cursor
deriving DecidableEq, Repr

/-- The output latch `DOUT`: a length and 16 bytes (10 R32). -/
structure OutLatch where
  len : BitVec 5
  data : Vector Byte 16
deriving DecidableEq, Repr

/-- What the host can do to the block: present a command with the operand data sampled with it (20 R66), or assert reset
between two commands (70 R240, log entry 4). Several hosts are one such sequence (60 R222, log entry 5). -/
inductive HostEvent where
  | command (cw : CmdWord) (din : DinWord)
  | reset
deriving DecidableEq, Repr

/-- The machine state: the architectural state of 10 R20, then the model's own two fields for the host's side. -/
structure State where
  /-- `B0`..`B7`: absent, or a byte sequence of length 0..16 (10 R21, R22); the bound is an invariant, not part of the type
  (log entry 6). -/
  b : Vector (Option (List Byte)) 8
  /-- `M0`..`M7`: absent, or 32 bits (10 R27). -/
  m : Vector (Option Mask) 8
  /-- `SR`, the scalar result (10 R31). -/
  sr : BitVec 64
  /-- `DOUT`, the output latch (10 R32). -/
  dout : OutLatch
  /-- `ST`, the status register (10 R33). -/
  st : Status
  /-- `IT`, the sibling iterator; `IT.active` is 1 exactly when it is present (10 R40). -/
  it : Option Iter
  /-- The port `DIN` as sampled with the command being executed (20 R66): an input, not state of the block (10 R20). -/
  din : DinWord
  /-- What the host has still to present, first event first (00 R15): inputs, not state of the block (10 R20). -/
  inputs : List HostEvent
deriving DecidableEq, Repr

/-- Why the machine stops with a fault: never. No command can fail but by an error kind reported in `ST`, and none can
hang or leave the block unable to take the next command (60 R210, 70 R251); so there is no constructor. -/
inductive Fault where
deriving DecidableEq, Repr

/-- Why a step is refused. -/
inductive Refusal where
  /-- Raised by an arm of `exec` whose instruction has no meaning yet; no arm raises it now. Safe: a refused step proves
  nothing about the hardware. -/
  | notModelled (mnemonic : String)
deriving DecidableEq, Repr

/-- The state after reset (10 R43): every register absent, `SR` 0, `DOUT` empty and zero, `ST` 0x00, no iterator. The two
fields of the host's side hold nothing (DESIGN CHOICE, log entries 1 and 2). -/
def State.reset : State where
  b := Vector.replicate 8 none
  m := Vector.replicate 8 none
  sr := 0
  dout := ⟨0, Vector.replicate 16 0⟩
  st := 0
  it := none
  din := 0
  inputs := []

end Sys2Proof.Machine
end

