-- ==== Sys2Proof/Machine/Flags.lean ====
section
/-! DEFINITION. The fields of the status register `ST` (10 R33) and every way a command writes them (10 R34, R35). -/

namespace Sys2Proof.Machine

/-- `ST.code`, bits 1:0: the outcome of the most recent command. -/
def stCode (st : Status) : BitVec 2 := st.extractLsb' 0 2

/-- `ST.EOS`, bit 2: the most recent successful `SNEXT` found no further sibling. -/
def stEos (st : Status) : Bool := st.getLsbD 2

/-- `ST.ACT`, bit 3: the iterator is active. -/
def stAct (st : Status) : Bool := st.getLsbD 3

/-- `ST.EIA`, bit 4: sticky, `InvalidArgument`. -/
def stEia (st : Status) : Bool := st.getLsbD 4

/-- `ST.EUN`, bit 5: sticky, `Unsupported`. -/
def stEun (st : Status) : Bool := st.getLsbD 5

/-- `ST.EIL`, bit 6: sticky, `IllegalCommand`. -/
def stEil (st : Status) : Bool := st.getLsbD 6

/-- `ST` with one bit written. -/
def stSetBit (st : Status) (i : Nat) (v : Bool) : Status :=
  if v then st ||| (1#8 <<< i) else st &&& ~~~(1#8 <<< i)

/-- `ST.code <- c`. -/
def stSetCode (st : Status) (c : BitVec 2) : Status := (st &&& 0xFC#8) ||| c.setWidth 8

/-- `ST.EOS <- v` (10 R35). -/
def stSetEos (st : Status) (v : Bool) : Status := stSetBit st 2 v

/-- `ST.ACT <- v` (10 R35). -/
def stSetAct (st : Status) (v : Bool) : Status := stSetBit st 3 v

/-- The code of a kind in `ST.code` (60 R210). -/
def ErrorKind.code : ErrorKind → BitVec 2
  | .invalidArgument => 1
  | .unsupported => 2
  | .illegalCommand => 3

/-- The place of a kind's sticky flag in `ST` (60 R210, 10 R33). -/
def ErrorKind.stickyBit : ErrorKind → Nat
  | .invalidArgument => 4
  | .unsupported => 5
  | .illegalCommand => 6

/-- What a successful command other than `CLRE` does to `ST` beside `EOS` and `ACT`: `code` is `OK` (10 R34). -/
def stOk (st : Status) : Status := stSetCode st 0

/-- What a failing command does to `ST`: the kind's code, and its sticky flag set (10 R34, 60 R214). -/
def stFail (st : Status) (k : ErrorKind) : Status := stSetBit (stSetCode st k.code) k.stickyBit true

/-- What `CLRE` does to `ST`: the three sticky flags cleared, `code` `OK` (43 R195). -/
def stClearErrors (st : Status) : Status :=
  stSetCode (stSetBit (stSetBit (stSetBit st 4 false) 5 false) 6 false) 0

end Sys2Proof.Machine
end

