-- ==== Sys2Proof/Machine/Ops.lean ====
section
/-! DEFINITION. The named operations over the registers, the byte-sequence and mask functions of the spec, and how a command
ends: with success, or by raising an error kind. Raising is NMP4's only exception (60 R214); nothing is entered, no control
moves, and there is no return from it (60 R218). -/

namespace Sys2Proof.Machine

/-! ### Registers -/

/-- `B[i]` read as a value: absent or a byte sequence (00 R11, 10 R21). -/
def State.readB (s : State) (i : RegIdx) : Option (List Byte) := s.b[i]

/-- `M[i]` read as a value: absent or 32 bits (00 R11, 10 R27). -/
def State.readM (s : State) (i : RegIdx) : Option Mask := s.m[i]

/-- `B[i] <- v`, where `none` is `absent` (00 R11). -/
def State.writeB (s : State) (i : RegIdx) (v : Option (List Byte)) : State := { s with b := s.b.set i v }

/-- `M[i] <- v`, where `none` is `absent` (00 R11, 10 R29). -/
def State.writeM (s : State) (i : RegIdx) (v : Option Mask) : State := { s with m := s.m.set i v }

/-- `SR <- v`, zero-extended to 64 bits (00 R11, 10 R31). -/
def State.writeSR (s : State) (v : Nat) : State := { s with sr := BitVec.ofNat 64 v }

/-- `pad(a, 16)` as the 16 bytes of the latch (00 R11, 43 R192). A buffer has at most 16 bytes (10 R21;
log entry 6). -/
def padLatch (a : List Byte) : Vector Byte 16 :=
  ⟨((a ++ List.replicate 16 0#8).take 16).toArray, by simp⟩

/-- `DOUT <- v`: the length, and the bytes with 0x00 beyond it (00 R11, 20 R68). -/
def State.writeDOUT (s : State) (a : List Byte) : State :=
  { s with dout := ⟨BitVec.ofNat 5 a.length, padLatch a⟩ }

/-! ### How a command ends -/

/-- A command's outcome. -/
abbrev Outcome := Host.Outcome State Fault Refusal

/-- A command that succeeds: `ST.code <- OK` beside what it wrote (10 R34, 60 R213). -/
def State.succeed (s : State) : Outcome := .next { s with st := stOk s.st }

/-- `raise k`: the kind's code and its sticky flag, and nothing else changes (60 R214). -/
def State.raise (s : State) (k : ErrorKind) : Outcome := .next { s with st := stFail s.st k }

/-! ### Byte sequences -/

/-- `u32(b)`, the big-endian value of a 4-byte buffer (00 R9). -/
def u32 (b : List Byte) : Addr := b.getD 0 0 ++ b.getD 1 0 ++ b.getD 2 0 ++ b.getD 3 0

/-- `bytes4(u)`, the four bytes of a 32-bit value, most significant first (00 R9). -/
def bytes4 (u : BitVec 32) : List Byte :=
  [u.extractLsb' 24 8, u.extractLsb' 16 8, u.extractLsb' 8 8, u.extractLsb' 0 8]

/-- `pad(a, n)`: zero bytes appended at the end (00 R11). -/
def pad (a : List Byte) (n : Nat) : List Byte := a ++ List.replicate (n - a.length) 0#8

/-- The elementwise combination of two buffers, the shorter one padded at its end (40 R111). -/
def combine (f : Byte → Byte → Byte) (a b : List Byte) : List Byte :=
  let n := max a.length b.length
  List.zipWith f (pad a n) (pad b n)

/-- The bits of a byte, most significant first (00 R8). -/
def byteBits (x : Byte) : List Bool :=
  [x.getLsbD 7, x.getLsbD 6, x.getLsbD 5, x.getLsbD 4, x.getLsbD 3, x.getLsbD 2, x.getLsbD 1, x.getLsbD 0]

/-- The bit stream of a buffer: byte 0 first, most significant bit first within a byte (00 R8, 20 R62). -/
def bitStream (b : List Byte) : List Bool := b.flatMap byteBits

/-- How many bits at the start of a bit sequence equal `v`. -/
def runLength (v : Bool) : List Bool → Nat
  | [] => 0
  | x :: xs => if x = v then runLength v xs + 1 else 0

/-- `count_leading(b, v)` (40 R115). -/
def countLeading (b : List Byte) (v : Bool) : Nat := runLength v (bitStream b)

/-- `count_trailing(b, v)`: the same count from the end of the stream backwards (40 R116). -/
def countTrailing (b : List Byte) (v : Bool) : Nat := runLength v (bitStream b).reverse

/-- `valid(b)`, the source's `represents_valid_mask` (40 R117). -/
def validMask (b : List Byte) : Bool := countLeading b true + countTrailing b false == 8 * b.length

/-! ### Masks -/

/-- `cidrmask(n)`, the mask of CIDR length `n`, by value (10 R30). -/
def cidrmask (n : Nat) : Mask := BitVec.ofNat 32 (2 ^ 32 - 2 ^ (32 - n))

/-- `cidr(u)`, the number of leading 1 bits (10 R30). -/
def cidr (u : Mask) : Nat := runLength true (bitStream (bytes4 u))

/-- `cidrmask(max(min(t, 32), 0))` of an exact integer (41 R139). -/
def clampMask (t : Int) : Mask := cidrmask (max (min t 32) 0).toNat

/-! ### The subnet of an address -/

/-- `net = m & A` (42 R161). -/
def netOf (m : Mask) (a : Addr) : Addr := m &&& a

/-- `hostid = ~m & A` (42 R161). -/
def hostIdOf (m : Mask) (a : Addr) : Addr := ~~~m &&& a

/-- `bcast = net | ~m` (42 R161). -/
def bcastOf (m : Mask) (a : Addr) : Addr := netOf m a ||| ~~~m

/-- `h = 32 - cidr(m)`, the host bits (42 R161). -/
def hostBits (m : Mask) : Nat := 32 - cidr m

/-- `excluded(x)` for an address of the subnet `net .. bcast` (42 R164); `single` says that `h = 0`. -/
def excluded (single : Bool) (net bcast self : Addr) (o : SibOpts) (x : Addr) : Bool :=
  if single then !o.includeSelf
  else (x == self && !o.includeSelf) || (x == net && !o.includeNetId) || (x == bcast && !o.includeBroadcast)

/-- The closed-form sibling count (42 R165). -/
def siblingCount (m : Mask) (self : Addr) (o : SibOpts) : Nat :=
  let h := hostBits m
  if h = 0 then o.includeSelf.toNat
  else
    let eNet := !o.includeNetId
    let eBcast := !o.includeBroadcast
    let eSelf := !o.includeSelf && !(self == netOf m self && eNet) && !(self == bcastOf m self && eBcast)
    2 ^ h - eNet.toNat - eBcast.toNat - eSelf.toNat

/-! ### The sibling iterator -/

/-- The iterator a successful `SSTART` writes (42 R166). -/
def Iter.start (m : Mask) (self : Addr) (o : SibOpts) : Iter where
  net := netOf m self
  bcast := bcastOf m self
  self := self
  opts := o
  cur := (netOf m self).setWidth 33

/-- `c <= IT.bcast`, on 33-bit values (42 R167). -/
def Iter.within (t : Iter) (c : Cursor) : Bool := decide (c ≤ t.bcast.setWidth 33)

/-- `excluded(c)` with the iterator's values; `h = 0` exactly when `IT.net = IT.bcast` (42 R167). -/
def Iter.excludes (t : Iter) (c : Cursor) : Bool :=
  excluded (t.net == t.bcast) t.net t.bcast t.self t.opts (c.setWidth 32)

/-- The loop of `SNEXT`, `while c <= IT.bcast and excluded(c): c = c + 1`, which runs at most as often as the first argument
says; 42 R167 gives the bound 3 (log entry 8). -/
def Iter.skip (t : Iter) : Nat → Cursor → Cursor
  | 0, c => c
  | n + 1, c => if t.within c && t.excludes c then t.skip n (c + 1) else c

/-- The candidate at which `SNEXT` stops looking (42 R167). -/
def Iter.candidate (t : Iter) : Cursor := t.skip 3 t.cur

end Sys2Proof.Machine
end

