-- ==== Sys2Proof/Machine/Operands.lean ====
section
/-! DEFINITION. The operand forms: a buffer register that must be present, a mask register that must be present, the mask
and address of the topology unit, and the two layouts of operand data on `DIN`. Each check ends the command with its error
kind before anything is written (60 R213, R215). -/

namespace Sys2Proof.Machine

/-- A source buffer register: absent is `InvalidArgument` (40 R110, 60 R211 (a)). -/
def State.needB (s : State) (i : RegIdx) (k : List Byte → Outcome) : Outcome :=
  match s.readB i with
  | none => s.raise .invalidArgument
  | some a => k a

/-- A source mask register: absent is `InvalidArgument` (41 R130, 60 R211 (b)). -/
def State.needM (s : State) (i : RegIdx) (k : Mask → Outcome) : Outcome :=
  match s.readM i with
  | none => s.raise .invalidArgument
  | some m => k m

/-- `is_ipv4(v)`: the family check is a length check (10 R26). -/
def isIpv4 (a : List Byte) : Bool := a.length == Config.maskBytes

/-- The operand checks of the topology unit: both registers present, then the address of length 4 (42 R160). The command
goes on with the mask and the address's value. -/
def State.needSubnet (s : State) (mi bi : RegIdx) (k : Mask → Addr → Outcome) : Outcome :=
  s.needM mi fun m => s.needB bi fun a =>
    if isIpv4 a then k m (u32 a) else s.raise .unsupported

/-- The scalar operand `s32(DIN[31:0])` (20 R65). -/
def State.scalarOperand (s : State) : Int := (s.din.extractLsb' 0 32).toInt

/-- Byte `i` of a buffer on `DIN`: `DIN[127-8i : 120-8i]` (20 R64). -/
def dinByte (din : DinWord) (i : Nat) : Byte := din.extractLsb' (120 - 8 * i) 8

/-- The buffer of `len` bytes on `DIN`, from the top (20 R64). -/
def State.bufferOperand (s : State) (len : Nat) : List Byte := (List.range len).map (dinByte s.din)

end Sys2Proof.Machine
end

