-- ==== Sys2Proof/Machine/Bitwise.lean ====
section
/-! DEFINITION. The meanings of the bitwise buffer engine's commands (40_bitwise.md). -/

namespace Sys2Proof.Machine

/-- The shape shared by `BAND`, `BOR`, `BXOR`: both sources present, then the padded combination (40 R110, R111). -/
def State.combineB (s : State) (f : Byte → Byte → Byte) (bd ba bb : RegIdx) : Outcome :=
  s.needB ba fun a => s.needB bb fun b => (s.writeB bd (some (combine f a b))).succeed

/-- `BAND Bd, Ba, Bb` (40 R111). -/
def execBand (bd ba bb : RegIdx) (s : State) : Outcome := s.combineB (fun x y => x &&& y) bd ba bb

/-- `BOR Bd, Ba, Bb` (40 R112). -/
def execBor (bd ba bb : RegIdx) (s : State) : Outcome := s.combineB (fun x y => x ||| y) bd ba bb

/-- `BXOR Bd, Ba, Bb` (40 R113). -/
def execBxor (bd ba bb : RegIdx) (s : State) : Outcome := s.combineB (fun x y => x ^^^ y) bd ba bb

/-- `BNOT Bd, Ba` (40 R114). -/
def execBnot (bd ba : RegIdx) (s : State) : Outcome :=
  s.needB ba fun a => (s.writeB bd (some (a.map fun x => ~~~x))).succeed

/-- `CNTL Bs, v` (40 R118). -/
def execCntl (ba : RegIdx) (v : Bool) (s : State) : Outcome :=
  s.needB ba fun a => (s.writeSR (countLeading a v)).succeed

/-- `CNTT Bs, v` (40 R119). -/
def execCntt (ba : RegIdx) (v : Bool) (s : State) : Outcome :=
  s.needB ba fun a => (s.writeSR (countTrailing a v)).succeed

/-- `BVALID Bs` (40 R120): a pattern that is no mask is an answer, not an error. -/
def execBvalid (ba : RegIdx) (s : State) : Outcome :=
  s.needB ba fun a => (s.writeSR (validMask a).toNat).succeed

end Sys2Proof.Machine
end

