-- ==== Sys2Proof/Machine/NetMask.lean ====
section
/-! DEFINITION. The meanings of the network-mask unit's commands (41_netmask.md). -/

namespace Sys2Proof.Machine

/-- `MFC Md, #n` (41 R132): `n` outside 0..32 is `InvalidArgument`. -/
def execMfc (md : RegIdx) (s : State) : Outcome :=
  let n := s.scalarOperand
  if n < 0 ∨ n > 32 then s.raise .invalidArgument
  else (s.writeM md (some (cidrmask n.toNat))).succeed

/-- `MFB Md, Bs` (41 R133): present, then 4 bytes, then a valid pattern. -/
def execMfb (md ba : RegIdx) (s : State) : Outcome :=
  s.needB ba fun b =>
    if b.length ≠ Config.maskBytes then s.raise .invalidArgument
    else if validMask b then (s.writeM md (some (u32 b))).succeed
    else s.raise .invalidArgument

/-- `MEMP Md` (41 R134). -/
def execMemp (md : RegIdx) (s : State) : Outcome := (s.writeM md (some 0)).succeed

/-- `MCIDR Ms` (41 R135). -/
def execMcidr (ma : RegIdx) (s : State) : Outcome := s.needM ma fun m => (s.writeSR (cidr m)).succeed

/-- `MTB Bd, Ms` (41 R136). -/
def execMtb (bd ma : RegIdx) (s : State) : Outcome := s.needM ma fun m => (s.writeB bd (some (bytes4 m))).succeed

/-- `MAND Md, Ma, Mb` (41 R137). -/
def execMand (md ma mb : RegIdx) (s : State) : Outcome :=
  s.needM ma fun a => s.needM mb fun b => (s.writeM md (some (a &&& b))).succeed

/-- `mask | mask` with the absent mask as the identity (41 R138). -/
def orMasks : Option Mask → Option Mask → Option Mask
  | none, b => b
  | some a, none => some a
  | some a, some b => some (a ||| b)

/-- `MOR Md, Ma, Mb` (41 R138): never an error. -/
def execMor (md ma mb : RegIdx) (s : State) : Outcome := (s.writeM md (orMasks (s.readM ma) (s.readM mb))).succeed

/-- `MEXT Md, Ms, #by` (41 R139): the exact sum, then the clamp. -/
def execMext (md ma : RegIdx) (s : State) : Outcome :=
  s.needM ma fun m => (s.writeM md (some (clampMask (cidr m + s.scalarOperand)))).succeed

/-- `MABR Md, Ms, #by` (41 R140): the exact difference, then the clamp. -/
def execMabr (md ma : RegIdx) (s : State) : Outcome :=
  s.needM ma fun m => (s.writeM md (some (clampMask (cidr m - s.scalarOperand)))).succeed

/-- `MEQ Ma, Mb` (41 R141). -/
def execMeq (ma mb : RegIdx) (s : State) : Outcome :=
  s.needM ma fun a => s.needM mb fun b => (s.writeSR (a == b).toNat).succeed

end Sys2Proof.Machine
end

