-- ==== Sys2Proof/Machine/Topology.lean ====
section
/-! DEFINITION. The meanings of the subnet-topology unit's commands (42_topology.md). -/

namespace Sys2Proof.Machine

/-- `NPFX Bd, Mm, Ba` (42 R162). -/
def execNpfx (bd ma bb : RegIdx) (s : State) : Outcome :=
  s.needSubnet ma bb fun m a => (s.writeB bd (some (bytes4 (netOf m a)))).succeed

/-- `HOSTID Bd, Mm, Ba` (42 R163). -/
def execHostid (bd ma bb : RegIdx) (s : State) : Outcome :=
  s.needSubnet ma bb fun m a => (s.writeB bd (some (bytes4 (hostIdOf m a)))).succeed

/-- `SCNT Mm, Ba, opts` (42 R165). -/
def execScnt (ma bb : RegIdx) (opts : SibOpts) (s : State) : Outcome :=
  s.needSubnet ma bb fun m a => (s.writeSR (siblingCount m a opts)).succeed

/-- `SSTART Mm, Ba, opts` (42 R166): the iterator is written whole, `ACT` set, `EOS` cleared. -/
def execSstart (ma bb : RegIdx) (opts : SibOpts) (s : State) : Outcome :=
  s.needSubnet ma bb fun m a =>
    State.succeed { s with it := some (Iter.start m a opts), st := stSetEos (stSetAct s.st true) false }

/-- `SNEXT Bd` (42 R167): the next address that is not excluded, or the end of the sequence. -/
def execSnext (bd : RegIdx) (s : State) : Outcome :=
  match s.it with
  | none => s.raise .invalidArgument
  | some t =>
    let c := t.candidate
    if t.within c then
      State.succeed { s.writeB bd (some (bytes4 (c.setWidth 32))) with
        it := some { t with cur := c + 1 }, st := stSetEos s.st false }
    else
      State.succeed { s with it := some { t with cur := c }, st := stSetEos s.st true }

end Sys2Proof.Machine
end

