-- ==== Sys2Proof/Machine/Transfer.lean ====
section
/-! DEFINITION. The meanings of the transfer and control commands (43_transfer_control.md). -/

namespace Sys2Proof.Machine

/-- `CLRE` (43 R195): the three sticky flags and `code` cleared, nothing else. -/
def execClre (s : State) : Outcome := .next { s with st := stClearErrors s.st }

/-- `BLD Bd, len, {bytes}` (43 R190). -/
def execBld (bd : RegIdx) (len : BitVec 5) (s : State) : Outcome :=
  (s.writeB bd (some (s.bufferOperand len.toNat))).succeed

/-- `BCLR Bd` (43 R191). -/
def execBclr (bd : RegIdx) (s : State) : Outcome := (s.writeB bd none).succeed

/-- `BRD Bs` (43 R192). -/
def execBrd (ba : RegIdx) (s : State) : Outcome := s.needB ba fun a => (s.writeDOUT a).succeed

/-- `MRD Ms` (43 R193). -/
def execMrd (ma : RegIdx) (s : State) : Outcome := s.needM ma fun m => (s.writeDOUT (bytes4 m)).succeed

/-- `MCLR Md` (43 R194). -/
def execMclr (md : RegIdx) (s : State) : Outcome := (s.writeM md none).succeed

end Sys2Proof.Machine
end

