-- ==== Sys2Proof/Syntax.lean ====
section
/-! DEFINITION. The commands of NMP4, one constructor per row of spec/opcode_table.json (30 R88). An operand is a field of
the command word; operand data on `DIN` is no part of a command word and takes no part in decoding (30 R80). -/

namespace Sys2Proof

/-- The 28 commands of 30 R88, in the table's order. A register operand named `bd`, `ba`, `bb` indexes the buffer file, one
named `md`, `ma`, `mb` the mask file (30 R83, the operands column of R88). -/
inductive Instr where
  /-- `CLRE`: clear the error record (43 R195). -/
  | clre
  /-- `BLD Bd, len, {bytes}`: load a buffer register from `DIN` (43 R190). -/
  | bld (bd : RegIdx) (len : BitVec 5)
  /-- `BCLR Bd`: make a buffer register absent (43 R191). -/
  | bclr (bd : RegIdx)
  /-- `BRD Bs`: copy a buffer register to `DOUT` (43 R192). -/
  | brd (ba : RegIdx)
  /-- `MRD Ms`: copy a mask register to `DOUT` (43 R193). -/
  | mrd (ma : RegIdx)
  /-- `MCLR Md`: make a mask register absent (43 R194). -/
  | mclr (md : RegIdx)
  /-- `BAND Bd, Ba, Bb` (40 R111). -/
  | band (bd ba bb : RegIdx)
  /-- `BOR Bd, Ba, Bb` (40 R112). -/
  | bor (bd ba bb : RegIdx)
  /-- `BXOR Bd, Ba, Bb` (40 R113). -/
  | bxor (bd ba bb : RegIdx)
  /-- `BNOT Bd, Ba` (40 R114). -/
  | bnot (bd ba : RegIdx)
  /-- `CNTL Bs, v`: leading run length of the bit `v` (40 R118). -/
  | cntl (ba : RegIdx) (v : Bool)
  /-- `CNTT Bs, v`: trailing run length of the bit `v` (40 R119). -/
  | cntt (ba : RegIdx) (v : Bool)
  /-- `BVALID Bs`: is the buffer ones then zeros (40 R120). -/
  | bvalid (ba : RegIdx)
  /-- `MFC Md, #n`: mask from a CIDR length (41 R132). -/
  | mfc (md : RegIdx)
  /-- `MFB Md, Bs`: mask from 4 bytes (41 R133). -/
  | mfb (md ba : RegIdx)
  /-- `MEMP Md`: the Empty mask (41 R134). -/
  | memp (md : RegIdx)
  /-- `MCIDR Ms`: the CIDR length of a mask (41 R135). -/
  | mcidr (ma : RegIdx)
  /-- `MTB Bd, Ms`: the bytes of a mask (41 R136). -/
  | mtb (bd ma : RegIdx)
  /-- `MAND Md, Ma, Mb` (41 R137). -/
  | mand (md ma mb : RegIdx)
  /-- `MOR Md, Ma, Mb` (41 R138). -/
  | mor (md ma mb : RegIdx)
  /-- `MEXT Md, Ms, #by`: lengthen the prefix (41 R139). -/
  | mext (md ma : RegIdx)
  /-- `MABR Md, Ms, #by`: shorten the prefix (41 R140). -/
  | mabr (md ma : RegIdx)
  /-- `MEQ Ma, Mb`: mask equality (41 R141). -/
  | meq (ma mb : RegIdx)
  /-- `NPFX Bd, Mm, Ba`: network prefix (42 R162). -/
  | npfx (bd ma bb : RegIdx)
  /-- `HOSTID Bd, Mm, Ba`: host identifier (42 R163). -/
  | hostid (bd ma bb : RegIdx)
  /-- `SCNT Mm, Ba, opts`: sibling count (42 R165). -/
  | scnt (ma bb : RegIdx) (opts : SibOpts)
  /-- `SSTART Mm, Ba, opts`: begin an enumeration (42 R166). -/
  | sstart (ma bb : RegIdx) (opts : SibOpts)
  /-- `SNEXT Bd`: deliver the next sibling (42 R167). -/
  | snext (bd : RegIdx)
deriving DecidableEq, Repr

end Sys2Proof
end

