-- ==== Sys2Proof/Machine/Dispatch.lean ====
section
/-! DEFINITION. One arm per command: the meaning it calls. -/

namespace Sys2Proof.Machine

/-- The effect of one decoded command on the state its operand data was sampled into. -/
def exec (i : Instr) (s : State) : Host.Outcome State Fault Refusal :=
  match i with
  | .clre => Sys2Proof.Machine.execClre s
  | .bld bd len => Sys2Proof.Machine.execBld bd len s
  | .bclr bd => Sys2Proof.Machine.execBclr bd s
  | .brd ba => Sys2Proof.Machine.execBrd ba s
  | .mrd ma => Sys2Proof.Machine.execMrd ma s
  | .mclr md => Sys2Proof.Machine.execMclr md s
  | .band bd ba bb => Sys2Proof.Machine.execBand bd ba bb s
  | .bor bd ba bb => Sys2Proof.Machine.execBor bd ba bb s
  | .bxor bd ba bb => Sys2Proof.Machine.execBxor bd ba bb s
  | .bnot bd ba => Sys2Proof.Machine.execBnot bd ba s
  | .cntl ba v => Sys2Proof.Machine.execCntl ba v s
  | .cntt ba v => Sys2Proof.Machine.execCntt ba v s
  | .bvalid ba => Sys2Proof.Machine.execBvalid ba s
  | .mfc md => Sys2Proof.Machine.execMfc md s
  | .mfb md ba => Sys2Proof.Machine.execMfb md ba s
  | .memp md => Sys2Proof.Machine.execMemp md s
  | .mcidr ma => Sys2Proof.Machine.execMcidr ma s
  | .mtb bd ma => Sys2Proof.Machine.execMtb bd ma s
  | .mand md ma mb => Sys2Proof.Machine.execMand md ma mb s
  | .mor md ma mb => Sys2Proof.Machine.execMor md ma mb s
  | .mext md ma => Sys2Proof.Machine.execMext md ma s
  | .mabr md ma => Sys2Proof.Machine.execMabr md ma s
  | .meq ma mb => Sys2Proof.Machine.execMeq ma mb s
  | .npfx bd ma bb => Sys2Proof.Machine.execNpfx bd ma bb s
  | .hostid bd ma bb => Sys2Proof.Machine.execHostid bd ma bb s
  | .scnt ma bb opts => Sys2Proof.Machine.execScnt ma bb opts s
  | .sstart ma bb opts => Sys2Proof.Machine.execSstart ma bb opts s
  | .snext bd => Sys2Proof.Machine.execSnext bd s

end Sys2Proof.Machine
end

