-- ==== Sys2Proof/WellFormed.lean ====
section
/-! DEFINITION. Which terms of `Instr` are commands. Register indexes, option flags and the counted bit are legal at every
value of their types (30 R83, R85, R86); the one check left is the length of `BLD` (30 R84, R92). -/

namespace Sys2Proof

/-- `BLD` loads at most `BUFMAX` bytes (30 R92); every other term is a command. -/
def Instr.wellFormed : Instr → Bool
  | .bld _ len => decide (len.toNat ≤ Config.bufMax)
  | _ => true

/-- The decidable proposition of `Instr.wellFormed`. -/
abbrev Instr.WellFormed (i : Instr) : Prop := i.wellFormed = true

end Sys2Proof
end

