-- ==== Sys2Proof/Decode.lean ====
section
/-! DEFINITION. The command decoder (30 R89), written as the opcode map of 30 R88 with the formats of R82, and after it the
encoder, written from the field layout of R81. The decoder is total: every one of the 2^32 words is one command or is
rejected by name. -/

namespace Sys2Proof

/-- Why a command word is no command. All three are the one error kind `IllegalCommand` to the host (30 R90); the names, and
that a word with two reasons is given the first, are the model's (log entry 10). -/
inductive DecodeError where
  /-- The `op` value is not in 30 R88 (30 R93). -/
  | reservedOpcode
  /-- A defined opcode with a 1 in a bit outside its format's used fields (30 R91). -/
  | strayBits
  /-- `BLD` with `len` in 17..31 (30 R92). -/
  | bldLength
deriving DecidableEq, Repr

/-- The formats of 30 R82: which fields of the command word a command uses. -/
inductive Format where
  | z | d | a | dl | da | ab | av | dab | abo
deriving DecidableEq, Repr

/-- The three option flags at `CW[9]`, `CW[10]`, `CW[11]` (30 R85), from the field `opts`, bit 0 first. -/
def optsOfBits (o : BitVec 3) : SibOpts :=
  ⟨o.getLsbD 0, o.getLsbD 1, o.getLsbD 2⟩

/-- The field `opts` of a set of option flags (30 R85). -/
def optsToBits (o : SibOpts) : BitVec 3 :=
  BitVec.ofBool o.includeNetId ++ BitVec.ofBool o.includeBroadcast ++ BitVec.ofBool o.includeSelf

/-- The fields of the command word (30 R81); the field `zero` is `CW[7:0]`. -/
structure Fields where
  op : BitVec 6 := 0
  rd : RegIdx := 0
  ra : RegIdx := 0
  rb : RegIdx := 0
  len : BitVec 5 := 0
  opts : SibOpts := ⟨false, false, false⟩
  v : Bool := false
deriving DecidableEq, Repr

/-- `CW[31:26]` (30 R81). -/
def opField (cw : CmdWord) : BitVec 6 := cw.extractLsb' 26 6

/-- A three-bit register index field of `CW`, at its lowest bit (30 R81, R83). -/
def regField (cw : CmdWord) (lo : Nat) : RegIdx := (cw.extractLsb' lo 3).toFin

/-- All the fields of a command word, at the places of 30 R81. -/
def fieldsOf (cw : CmdWord) : Fields where
  op := opField cw
  rd := regField cw 23
  ra := regField cw 20
  rb := regField cw 17
  len := cw.extractLsb' 12 5
  opts := optsOfBits (cw.extractLsb' 9 3)
  v := cw.getLsbD 8

/-- The bits of `CW` that a command of the format must have as its `match` says: all 32 but the used fields (30 R82). -/
def Format.mask : Format → CmdWord
  | .z => 0xFFFFFFFF#32
  | .d => 0xFC7FFFFF#32
  | .a => 0xFF8FFFFF#32
  | .dl => 0xFC7E0FFF#32
  | .da => 0xFC0FFFFF#32
  | .ab => 0xFF81FFFF#32
  | .av => 0xFF8FFEFF#32
  | .dab => 0xFC01FFFF#32
  | .abo => 0xFF81F1FF#32

/-- A row of the opcode map: opcode, format, and the command its fields make (30 R88). -/
structure OpRow where
  op : BitVec 6
  fmt : Format
  build : Fields → Instr

/-- The row's `match`, `op << 26` (30 R82). -/
def OpRow.word (r : OpRow) : CmdWord := r.op.setWidth 32 <<< 26

/-- Rows 0x01 to 0x06 of 30 R88: transfer and control. -/
def transferRows : List OpRow :=
  [⟨0x01#6, .z, fun _ => .clre⟩,
   ⟨0x02#6, .dl, fun f => .bld f.rd f.len⟩,
   ⟨0x03#6, .d, fun f => .bclr f.rd⟩,
   ⟨0x04#6, .a, fun f => .brd f.ra⟩,
   ⟨0x05#6, .a, fun f => .mrd f.ra⟩,
   ⟨0x06#6, .d, fun f => .mclr f.rd⟩]

/-- Rows 0x08 to 0x0E of 30 R88: the bitwise buffer engine. -/
def bitwiseRows : List OpRow :=
  [⟨0x08#6, .dab, fun f => .band f.rd f.ra f.rb⟩,
   ⟨0x09#6, .dab, fun f => .bor f.rd f.ra f.rb⟩,
   ⟨0x0A#6, .dab, fun f => .bxor f.rd f.ra f.rb⟩,
   ⟨0x0B#6, .da, fun f => .bnot f.rd f.ra⟩,
   ⟨0x0C#6, .av, fun f => .cntl f.ra f.v⟩,
   ⟨0x0D#6, .av, fun f => .cntt f.ra f.v⟩,
   ⟨0x0E#6, .a, fun f => .bvalid f.ra⟩]

/-- Rows 0x10 to 0x19 of 30 R88: the network-mask unit. -/
def netMaskRows : List OpRow :=
  [⟨0x10#6, .d, fun f => .mfc f.rd⟩,
   ⟨0x11#6, .da, fun f => .mfb f.rd f.ra⟩,
   ⟨0x12#6, .d, fun f => .memp f.rd⟩,
   ⟨0x13#6, .a, fun f => .mcidr f.ra⟩,
   ⟨0x14#6, .da, fun f => .mtb f.rd f.ra⟩,
   ⟨0x15#6, .dab, fun f => .mand f.rd f.ra f.rb⟩,
   ⟨0x16#6, .dab, fun f => .mor f.rd f.ra f.rb⟩,
   ⟨0x17#6, .da, fun f => .mext f.rd f.ra⟩,
   ⟨0x18#6, .da, fun f => .mabr f.rd f.ra⟩,
   ⟨0x19#6, .ab, fun f => .meq f.ra f.rb⟩]

/-- Rows 0x20 to 0x24 of 30 R88: the subnet-topology unit. -/
def topologyRows : List OpRow :=
  [⟨0x20#6, .dab, fun f => .npfx f.rd f.ra f.rb⟩,
   ⟨0x21#6, .dab, fun f => .hostid f.rd f.ra f.rb⟩,
   ⟨0x22#6, .abo, fun f => .scnt f.ra f.rb f.opts⟩,
   ⟨0x23#6, .abo, fun f => .sstart f.ra f.rb f.opts⟩,
   ⟨0x24#6, .d, fun f => .snext f.rd⟩]

/-- The complete opcode map, 28 rows (30 R88). -/
def opcodeMap : List OpRow := transferRows ++ bitwiseRows ++ netMaskRows ++ topologyRows

/-- The row of an opcode, if the opcode is not reserved (30 R93). -/
def rowOf (op : BitVec 6) : Option OpRow := opcodeMap.find? fun r => r.op == op

/-- 30 R89: the row with `(CW & mask) = match` gives the command, if also `len <= 16` for `BLD`. The masks all include
bits 31:26, so the row, if there is one, is the row of the opcode. -/
def decode (cw : CmdWord) : Except DecodeError Instr :=
  match rowOf (opField cw) with
  | none => .error .reservedOpcode
  | some r =>
    if cw &&& r.fmt.mask = r.word then
      let i := r.build (fieldsOf cw)
      if i.wellFormed then .ok i else .error .bldLength
    else .error .strayBits

/-- `CW = op<<26 | rd<<23 | ra<<20 | rb<<17 | len<<12 | opts<<9 | v<<8` (30 R81). -/
def wordOf (f : Fields) : CmdWord :=
  f.op ++ BitVec.ofFin (w := 3) f.rd ++ BitVec.ofFin (w := 3) f.ra ++ BitVec.ofFin (w := 3) f.rb ++ f.len ++
    optsToBits f.opts ++ BitVec.ofBool f.v ++ 0#8

/-- The fields of a command: its opcode (30 R88) and its operands, every unused field 0 (30 R82, R91). -/
def Instr.fields : Instr → Fields
  | .clre => { op := 0x01 }
  | .bld bd len => { op := 0x02, rd := bd, len := len }
  | .bclr bd => { op := 0x03, rd := bd }
  | .brd ba => { op := 0x04, ra := ba }
  | .mrd ma => { op := 0x05, ra := ma }
  | .mclr md => { op := 0x06, rd := md }
  | .band bd ba bb => { op := 0x08, rd := bd, ra := ba, rb := bb }
  | .bor bd ba bb => { op := 0x09, rd := bd, ra := ba, rb := bb }
  | .bxor bd ba bb => { op := 0x0A, rd := bd, ra := ba, rb := bb }
  | .bnot bd ba => { op := 0x0B, rd := bd, ra := ba }
  | .cntl ba v => { op := 0x0C, ra := ba, v := v }
  | .cntt ba v => { op := 0x0D, ra := ba, v := v }
  | .bvalid ba => { op := 0x0E, ra := ba }
  | .mfc md => { op := 0x10, rd := md }
  | .mfb md ba => { op := 0x11, rd := md, ra := ba }
  | .memp md => { op := 0x12, rd := md }
  | .mcidr ma => { op := 0x13, ra := ma }
  | .mtb bd ma => { op := 0x14, rd := bd, ra := ma }
  | .mand md ma mb => { op := 0x15, rd := md, ra := ma, rb := mb }
  | .mor md ma mb => { op := 0x16, rd := md, ra := ma, rb := mb }
  | .mext md ma => { op := 0x17, rd := md, ra := ma }
  | .mabr md ma => { op := 0x18, rd := md, ra := ma }
  | .meq ma mb => { op := 0x19, ra := ma, rb := mb }
  | .npfx bd ma bb => { op := 0x20, rd := bd, ra := ma, rb := bb }
  | .hostid bd ma bb => { op := 0x21, rd := bd, ra := ma, rb := bb }
  | .scnt ma bb opts => { op := 0x22, ra := ma, rb := bb, opts := opts }
  | .sstart ma bb opts => { op := 0x23, ra := ma, rb := bb, opts := opts }
  | .snext bd => { op := 0x24, rd := bd }

/-- The command word of a command (30 R81, R88). -/
def encode (i : Instr) : CmdWord := wordOf i.fields

/-- The command a word of `nbits` bits is, numbered as spec/opcode_table.json numbers them; the bits above `nbits` are 0.
A word that does not fit the 32 bits of `CW` is no command word (30 R80, log entry 10). -/
def decodeTableWord (nbits w : Nat) : Option Instr :=
  if nbits ≤ 32 ∧ w < 2 ^ nbits then (decode (BitVec.ofNat 32 w)).toOption else none

end Sys2Proof
end

