-- ==== Sys2Proof/Machine/Port.lean ====
section
/-! DEFINITION. The three ports (92 D2): the command port and the reset input, from which `step` takes what the host presents
next, and the response port, which shows the host the state. -/

namespace Sys2Proof.Machine

/-- What a step finds at the ports. -/
inductive Sampled where
  /-- Nothing is presented. -/
  | idle
  /-- Reset is asserted; the state goes on with the rest of the inputs. -/
  | reset (s : State)
  /-- A command word, with its operand data sampled into `State.din`. -/
  | command (cw : CmdWord) (s : State)
deriving DecidableEq, Repr

/-- Take the host's next event: `CW` and `DIN` are sampled together (20 R66). -/
def State.sample (s : State) : Sampled :=
  match s.inputs with
  | [] => .idle
  | .reset :: rest => .reset { s with inputs := rest }
  | .command cw din :: rest => .command cw { s with din := din, inputs := rest }

/-- Nothing presented: the block waits, and its state stays as it is (70 R241; DESIGN CHOICE, log entry 1). -/
def execIdle (s : State) : Outcome := .next s

/-- Reset: every piece of state at its reset value (70 R240); what the host presents later is not the block's to change. -/
def execReset (s : State) : Outcome := .next { State.reset with inputs := s.inputs }

/-- A command word that does not decode raises `IllegalCommand` (30 R90). -/
def execIllegal (s : State) : Outcome := s.raise .illegalCommand

/-- `s` with the command of a 32-bit word presented next, with operand data 0; the word's bits are numbered as
spec/opcode_table.json numbers them, and those above `nbits` are 0. -/
def State.presentWord (s : State) (nbits w : Nat) : State :=
  { s with inputs := .command (BitVec.ofNat 32 (w % 2 ^ nbits)) 0 :: s.inputs }

/-- What the response port shows (20 R67). -/
structure Response where
  st : Status
  sr : BitVec 64
  doutLen : BitVec 5
  doutData : BitVec 128
deriving DecidableEq, Repr

/-- `DOUT.data` on the response port: byte `i` at bits `127-8i : 120-8i` (20 R67). -/
def portData (d : Vector Byte 16) : BitVec 128 :=
  d.toList.foldl (fun acc x => acc <<< 8 ||| x.setWidth 128) 0

/-- The response port, at all times the current values of `ST`, `SR` and `DOUT` (20 R67). It is output only: there is no
function back. -/
def State.response (s : State) : Response := ⟨s.st, s.sr, s.dout.len, portData s.dout.data⟩

end Sys2Proof.Machine
end

