-- ==== Sys2Proof/Machine/Step.lean ====
section
/-! DEFINITION. One step of the machine: what the host presents next is taken as one indivisible step (20 R70), in the order
it presents it (20 R71). -/

namespace Sys2Proof.Machine

/-- Sample the ports; then wait, reset, execute the decoded command, or raise `IllegalCommand` (60 R213). -/
def step (s : State) : Host.Outcome State Fault Refusal :=
  match s.sample with
  | .idle => execIdle s
  | .reset s' => execReset s'
  | .command cw s' =>
    match decode cw with
    | .ok i => exec i s'
    | .error _ => execIllegal s'

/-- `s` with the instruction of the given word placed where `step` takes its next instruction: presented first on the
command port, with operand data 0. -/
def State.withFetchWord (s : State) (nbits w : Nat) : State := s.presentWord nbits w

end Sys2Proof.Machine
end

