-- ==== Sys2Proof/Safety.lean ====
section
/-! DEFINITION. The terms claims are stated in: positions of the bit stream, prefix masks, the excluded set, the illegal words
and the error of a command as the spec's tables give them, the invariant of the state, and the runs of the machine. Each is
written from the spec's own words, not from the meanings in Machine/. -/

namespace Sys2Proof.Machine

/-! ### Command words -/

/-- `CW = op<<26 | rd<<23 | ra<<20 | rb<<17 | len<<12 | opts<<9 | v<<8` (30 R81), as a number. -/
def commandWord (op rd ra rb len opts v : Nat) : CmdWord :=
  BitVec.ofNat 32 (op * 2 ^ 26 + rd * 2 ^ 23 + ra * 2 ^ 20 + rb * 2 ^ 17 + len * 2 ^ 12 + opts * 2 ^ 9 + v * 2 ^ 8)

/-- The opcodes that are not in 30 R88, as R93 lists them. -/
def reservedOp (op : Nat) : Bool :=
  op == 0x00 || op == 0x07 || op == 0x0F || (0x1A ≤ op && op ≤ 0x1F) || (0x25 ≤ op && op ≤ 0x3F)

/-- The bits of the used fields of an opcode's format: `rd` 0x03800000, `ra` 0x00700000, `rb` 0x000E0000, `len` 0x0001F000,
`opts` 0x00000E00, `v` 0x00000100 (30 R82). -/
def usedBits (op : Nat) : CmdWord :=
  if op = 0x02 then 0x03800000#32 ||| 0x0001F000#32
  else if op ∈ [0x03, 0x06, 0x10, 0x12, 0x24] then 0x03800000#32
  else if op ∈ [0x04, 0x05, 0x0E, 0x13] then 0x00700000#32
  else if op ∈ [0x0B, 0x11, 0x14, 0x17, 0x18] then 0x03800000#32 ||| 0x00700000#32
  else if op = 0x19 then 0x00700000#32 ||| 0x000E0000#32
  else if op ∈ [0x0C, 0x0D] then 0x00700000#32 ||| 0x00000100#32
  else if op ∈ [0x08, 0x09, 0x0A, 0x15, 0x16, 0x20, 0x21] then 0x03800000#32 ||| 0x00700000#32 ||| 0x000E0000#32
  else if op ∈ [0x22, 0x23] then 0x00700000#32 ||| 0x000E0000#32 ||| 0x00000E00#32
  else 0#32

/-- The illegal words: a reserved opcode (30 R93), a 1 in a bit below the opcode that is outside the format's used fields
(R91), or `BLD` with `len` in 17..31 (R92). -/
def IllegalWord (cw : CmdWord) : Prop :=
  reservedOp (cw.toNat / 2 ^ 26) = true ∨ cw &&& 0x03FFFFFF#32 &&& ~~~usedBits (cw.toNat / 2 ^ 26) ≠ 0#32 ∨
    (cw.toNat / 2 ^ 26 = 0x02 ∧ 16 < cw.toNat / 2 ^ 12 % 32)

/-! ### Bit streams and masks -/

/-- The bit at stream position `p`: bit `7 - (p mod 8)` of byte `p div 8` (00 R8, 20 R62). -/
def streamBit (b : List Byte) (p : Nat) : Bool := (b.getD (p / 8) 0).getLsbD (7 - p % 8)

/-- A run of 1s followed entirely by 0s (40 R117). -/
def OnesThenZeros (b : List Byte) : Prop :=
  ∃ n, n ≤ 8 * b.length ∧ ∀ p, p < 8 * b.length → streamBit b p = decide (p < n)

/-- A valid prefix mask (10 R28). -/
def IsPrefixMask (u : Mask) : Prop := ∃ n, n ≤ 32 ∧ u = cidrmask n

/-- `u32(b)` of a 4-byte buffer as 00 R9 writes it: `b[0]*2^24 + b[1]*2^16 + b[2]*2^8 + b[3]`. -/
def addrOf (b0 b1 b2 b3 : Byte) : Addr :=
  BitVec.ofNat 32 (b0.toNat * 2 ^ 24 + b1.toNat * 2 ^ 16 + b2.toNat * 2 ^ 8 + b3.toNat)

/-! ### Siblings -/

/-- The excluded set of a subnet (42 R164): the address `x` of `net .. bcast` is no sibling of `self` under the flags. -/
def SiblingExcluded (net bcast self : Addr) (o : SibOpts) (x : Addr) : Prop :=
  if net = bcast then o.includeSelf = false
  else (x = self ∧ o.includeSelf = false) ∨ (x = net ∧ o.includeNetId = false) ∨
    (x = bcast ∧ o.includeBroadcast = false)

/-- Membership in the excluded set is decided by its definition. -/
abbrev siblingExcluded (net bcast self : Addr) (o : SibOpts) (x : Addr) : Bool :=
  if net = bcast then decide (o.includeSelf = false)
  else decide ((x = self ∧ o.includeSelf = false) ∨ (x = net ∧ o.includeNetId = false) ∨
    (x = bcast ∧ o.includeBroadcast = false))

/-- The siblings of `self` under a mask, in ascending order: the addresses `x` of `net .. bcast` that are not excluded
(42 R164, R168), where `net = m & self`, `bcast = net | ~m` (R161). -/
def siblings (m : Mask) (self : Addr) (o : SibOpts) : List Addr :=
  let net := m &&& self
  let bcast := net ||| ~~~m
  ((List.range (bcast.toNat - net.toNat + 1)).map fun i => BitVec.ofNat 32 (net.toNat + i)).filter
    fun x => !siblingExcluded net bcast self o x

/-- The buffers delivered by successive `SNEXT` commands, at most `n` of them, up to the first that leaves `EOS = 1`
(42 R168). -/
def deliveries (bd : RegIdx) : Nat → State → List (Option (List Byte))
  | 0, _ => []
  | n + 1, s =>
    match exec (.snext bd) s with
    | .next t => if stEos t.st then [] else t.readB bd :: deliveries bd n t
    | _ => []

/-! ### Errors -/

/-- The error a decoded command raises, by the table of 60 R212 and the order of R215. -/
def errorOf (i : Instr) (s : State) : Option ErrorKind :=
  match i with
  | .clre | .bld .. | .bclr _ | .mclr _ | .memp _ | .mor .. => none
  | .brd ba | .bnot _ ba | .cntl ba _ | .cntt ba _ | .bvalid ba =>
    if s.readB ba = none then some .invalidArgument else none
  | .band _ ba bb | .bor _ ba bb | .bxor _ ba bb =>
    if s.readB ba = none ∨ s.readB bb = none then some .invalidArgument else none
  | .mrd ma | .mcidr ma | .mtb _ ma | .mext _ ma | .mabr _ ma =>
    if s.readM ma = none then some .invalidArgument else none
  | .mand _ ma mb | .meq ma mb =>
    if s.readM ma = none ∨ s.readM mb = none then some .invalidArgument else none
  | .mfc _ =>
    if 0 ≤ (s.din.extractLsb' 0 32).toInt ∧ (s.din.extractLsb' 0 32).toInt ≤ 32 then none else some .invalidArgument
  | .mfb _ ba =>
    match s.readB ba with
    | none => some .invalidArgument
    | some b =>
      if b.length = 4 ∧ countLeading b true + countTrailing b false = 8 * b.length then none else some .invalidArgument
  | .npfx _ ma bb | .hostid _ ma bb | .scnt ma bb _ | .sstart ma bb _ =>
    match s.readM ma, s.readB bb with
    | some _, some a => if a.length = 4 then none else some .unsupported
    | _, _ => some .invalidArgument
  | .snext _ => if s.it = none then some .invalidArgument else none

/-- A command runs safely when it raises no error: it then does what its rule says, and `ST.code` is `OK`. -/
abbrev Safe (i : Instr) (s : State) : Prop := errorOf i s = none

/-! ### Which registers a command may write -/

/-- The buffer register a command writes (10 R23). -/
def bufferDest : Instr → Option RegIdx
  | .bld bd _ | .bclr bd | .band bd _ _ | .bor bd _ _ | .bxor bd _ _ | .bnot bd _ | .mtb bd _ | .npfx bd _ _
  | .hostid bd _ _ | .snext bd => some bd
  | _ => none

/-- The mask register a command writes (10 R29). -/
def maskDest : Instr → Option RegIdx
  | .mfc md | .mfb md _ | .memp md | .mand md _ _ | .mor md _ _ | .mext md _ | .mabr md _ | .mclr md => some md
  | _ => none

/-- The six commands that write `SR` (10 R31). -/
def writesSR : Instr → Bool
  | .cntl .. | .cntt .. | .bvalid _ | .mcidr _ | .meq .. | .scnt .. => true
  | _ => false

/-- The two commands that write `DOUT` (10 R32). -/
def writesDOUT : Instr → Bool
  | .brd _ | .mrd _ => true
  | _ => false

/-- The commands that read the whole or a part of `DIN` (30 R87). -/
def readsDIN : Instr → Bool
  | .bld .. | .mfc _ | .mext .. | .mabr .. => true
  | _ => false

/-! ### The invariant -/

/-- The invariant of an active iterator (10 R41). -/
structure Iter.Inv (t : Iter) : Prop where
  subnet : ∃ h, h ≤ 32 ∧ t.net.toNat % 2 ^ h = 0 ∧ t.bcast.toNat = t.net.toNat + (2 ^ h - 1)
  self_ge : t.net.toNat ≤ t.self.toNat
  self_le : t.self.toNat ≤ t.bcast.toNat
  cur_ge : t.net.toNat ≤ t.cur.toNat
  cur_le : t.cur.toNat ≤ t.bcast.toNat + 1

/-- The invariant of the machine state. -/
structure State.Inv (s : State) : Prop where
  /-- Every present mask is a valid prefix mask (10 R28). -/
  masks : ∀ i m, s.readM i = some m → IsPrefixMask m
  /-- Every present buffer has at most 16 bytes (10 R21). -/
  buffers : ∀ i a, s.readB i = some a → a.length ≤ 16
  /-- The largest value of `SR` is 2^32 (10 R31). -/
  sr : s.sr.toNat ≤ 2 ^ 32
  /-- `DOUT.len` is 0..16 (10 R32). -/
  doutLen : s.dout.len.toNat ≤ 16
  /-- The bytes of `DOUT` beyond its length are 0x00 (20 R68). -/
  doutTail : ∀ j : Fin 16, s.dout.len.toNat ≤ j.val → s.dout.data[j] = 0
  /-- Bit 7 of `ST` reads 0 (10 R33). -/
  reserved : s.st.getLsbD 7 = false
  /-- `ST.ACT` equals `IT.active` (10 R33). -/
  act : stAct s.st = s.it.isSome
  /-- The iterator's invariant (10 R41). -/
  iter : ∀ t, s.it = some t → t.Inv

/-! ### Runs -/

/-- The states a run reaches from reset, whatever the host presents (00 R15, 70 R240). -/
inductive Reachable : State → Prop where
  | reset (inputs : List HostEvent) : Reachable { State.reset with inputs := inputs }
  | step {s t : State} (hs : Reachable s) (ht : Machine.step s = .next t) : Reachable t

end Sys2Proof.Machine
end

