-- ==== Sys2Proof/Certificates/Slice0/Obligations.lean ====
section
/-! DEFINITION. The statements for the provers, in the order of the spec's files. In every statement about one command the
first clause is its encoding (30 R81, R88), the clauses after it its errors (60 R212, R214), the last its result and, in the same
equation, its frame: what the equation does not name is the state before. `(st &&& 0xFC)` is `ST` with `code` 0; `||| 0x11`,
`||| 0x22`, `||| 0x43` add the code and the sticky flag of InvalidArgument, Unsupported and IllegalCommand (10 R33). -/

open Sys2Proof Sys2Proof.Machine

/-! ### Encoding -/

/-- Words the spec writes out (30 R101, R102; 95 P1 to P6; 96 V33) decode to the commands it names. -/
def Obligations.SpecExampleWordsDecode : Prop :=
  decode 0x08004000#32 = .ok (.bld 0 4) ∧ decode 0x40800000#32 = .ok (.mfc 1) ∧
  decode 0x5D100000#32 = .ok (.mext 2 1) ∧ decode 0x88000C00#32 = .ok (.scnt 0 0 ⟨false, true, true⟩) ∧
  decode 0x30100100#32 = .ok (.cntl 1 true) ∧ decode 0x26160000#32 = .ok (.bor 4 1 3) ∧
  decode 0x04000000#32 = .ok .clre ∧ decode 0x81840000#32 = .ok (.npfx 3 0 2) ∧
  decode 0x92800000#32 = .ok (.snext 5) ∧ (decode 0x00000000#32).toOption = none ∧
  (decode 0x20000001#32).toOption = none ∧ (decode 0x08011000#32).toOption = none

/-- Decode and encode agree: no bit of an encoding is dropped (30 R81, R82, R88, R89). -/
def Obligations.DecodeOfEncodeReturnsTheCommand : Prop :=
  ∀ i : Instr, i.WellFormed → decode (encode i) = .ok i

/-- Every word that decodes is the one word of its command, and the command is well formed (30 R89, R91). -/
def Obligations.EncodeOfDecodeReturnsTheWord : Prop :=
  ∀ (cw : CmdWord) (i : Instr), decode cw = .ok i → encode i = cw ∧ i.WellFormed

/-- 30 R90: a word that is not a command is illegal, executing it raises `IllegalCommand` and changes nothing else, and the
illegal words are exactly those of R91, R92 and R93. The two fields `inputs` and `din` are the host's side and no state of the
block: how the model keeps them is its own (log entries 1 and 2). -/
def Obligations.IllegalWordsRaiseIllegalCommand : Prop :=
  ∀ (cw : CmdWord) (din : DinWord) (rest : List HostEvent) (s : State), s.inputs = .command cw din :: rest →
    (IllegalWord cw → (∃ e, decode cw = .error e) ∧
      step s = .next { s with inputs := rest, din := din, st := (s.st &&& 0xFC#8) ||| 0x43#8 }) ∧
    (¬ IllegalWord cw → ∃ i, decode cw = .ok i)

/-! ### The step -/

/-- A step runs the decoded command on the state its operand data was sampled into (20 R66, R70, 60 R213). -/
def Obligations.StepRunsTheDecodedCommand : Prop :=
  ∀ (cw : CmdWord) (din : DinWord) (rest : List HostEvent) (s : State) (i : Instr),
    s.inputs = .command cw din :: rest → decode cw = .ok i → step s = exec i { s with din := din, inputs := rest }

/-- What every piece of state holds after reset, whatever it held before (10 R43). That the events presented after the reset are
kept, `t.inputs = rest`, is the model's choice (log entry 1); R43 says nothing of it. -/
def Obligations.ResetLeavesTheSpecifiedState : Prop :=
  ∀ (s : State) (rest : List HostEvent), s.inputs = .reset :: rest →
    ∃ t, step s = .next t ∧ t.inputs = rest ∧ (∀ i, t.readB i = none) ∧ (∀ i, t.readM i = none) ∧ t.sr = 0 ∧
      t.dout.len = 0 ∧ (∀ j : Fin 16, t.dout.data[j] = 0) ∧ t.st = 0x00#8 ∧ t.it = none

/-- The model's choice (log entry 1): with nothing presented the state stays as it is; the spec has no such step. -/
def Obligations.StepWithNothingPresentedWaits : Prop :=
  ∀ s : State, s.inputs = [] → step s = .next s

/-- 70 R251, 60 R210: every command completes; from every state a step yields a next state. -/
def Obligations.EveryStepCompletes : Prop :=
  ∀ s : State, ∃ t, step s = .next t

/-! ### Invariants -/

/-- The state after reset meets the invariant, with whatever the host presents next. -/
def Obligations.ResetMeetsTheStateInvariant : Prop :=
  ∀ inputs : List HostEvent, ({ State.reset with inputs := inputs } : State).Inv

/-- Every step keeps the invariant (10 R21, R28, R31, R33, R41, 20 R68). -/
def Obligations.EveryStepKeepsTheStateInvariant : Prop :=
  ∀ s t : State, s.Inv → step s = .next t → t.Inv

/-- In every reachable state every present mask register is `cidrmask(n)` for exactly one `n` in 0..32. Derived: the spec marks
"Invariant of the mask register file: in every reachable state, ..." (10 R28) as its own inference. -/
def Obligations.ReachableMasksAreValid : Prop :=
  ∀ s : State, Reachable s → ∀ i m, s.readM i = some m → ∃! n, n ≤ 32 ∧ m = cidrmask n

/-- The invariants of an active iterator in every reachable state. Derived: the spec marks "Invariants of an active iterator, in
every reachable state: ..." (10 R41) as its own inference. -/
def Obligations.ReachableIteratorsAreInTheirSubnet : Prop :=
  ∀ s : State, Reachable s → ∀ t, s.it = some t →
    t.net ≤ t.self ∧ t.self ≤ t.bcast ∧ t.net.toNat ≤ t.cur.toNat ∧ t.cur.toNat ≤ t.bcast.toNat + 1 ∧
    ∃ h, h ≤ 32 ∧ t.bcast.toNat - t.net.toNat = 2 ^ h - 1 ∧
      ∀ j, j < h → t.net.getLsbD j = false ∧ t.bcast.getLsbD j = true

/-! ### Errors and the status register -/

/-- 60 R212 and R214: which command fails on which operands and with which kind, and that a failing command changes `ST.code`
and one sticky flag and nothing else; every other command succeeds. -/
def Obligations.FailuresByCommandAndTheirEffect : Prop :=
  ∀ (i : Instr) (s : State),
    (errorOf i s = some .invalidArgument → exec i s = .next { s with st := (s.st &&& 0xFC#8) ||| 0x11#8 }) ∧
    (errorOf i s = some .unsupported → exec i s = .next { s with st := (s.st &&& 0xFC#8) ||| 0x22#8 }) ∧
    errorOf i s ≠ some .illegalCommand ∧
    (Safe i s → ∃ t, exec i s = .next t ∧ stCode t.st = 0)

/-- 10 R34: how `ST.code` and the sticky flags are written by every command, the undecodable ones included. -/
def Obligations.CodeAndStickyFlagsAreWrittenAsSpecified : Prop :=
  (∀ (i : Instr) (s t : State), exec i s = .next t →
    (Safe i s → stCode t.st = 0) ∧
    (Safe i s → i ≠ .clre → stEia t.st = stEia s.st ∧ stEun t.st = stEun s.st ∧ stEil t.st = stEil s.st) ∧
    (i = .clre → stEia t.st = false ∧ stEun t.st = false ∧ stEil t.st = false) ∧
    (errorOf i s = some .invalidArgument →
      stCode t.st = 1 ∧ stEia t.st = true ∧ stEun t.st = stEun s.st ∧ stEil t.st = stEil s.st) ∧
    (errorOf i s = some .unsupported →
      stCode t.st = 2 ∧ stEia t.st = stEia s.st ∧ stEun t.st = true ∧ stEil t.st = stEil s.st)) ∧
  (∀ (cw : CmdWord) (din : DinWord) (rest : List HostEvent) (e : DecodeError) (s t : State),
    s.inputs = .command cw din :: rest → decode cw = .error e → step s = .next t →
      stCode t.st = 3 ∧ stEia t.st = stEia s.st ∧ stEun t.st = stEun s.st ∧ stEil t.st = true)

/-- 10 R35: `EOS` is written only by a successful `SSTART` and a successful `SNEXT`, which sets it exactly when no candidate
from `cur` to `bcast` is left; `ACT` is set by a successful `SSTART` and cleared by no command. -/
def Obligations.EosAndActAreWrittenByTheIteratorCommands : Prop :=
  (∀ (i : Instr) (s t : State), exec i s = .next t →
    (∀ ma bb o, i = .sstart ma bb o → Safe i s → stEos t.st = false ∧ stAct t.st = true) ∧
    (∀ bd, i = .snext bd → stAct t.st = stAct s.st ∧ ∀ u, s.it = some u → u.Inv → stCode t.st = 0 ∧
      (stEos t.st = true ↔ ∀ x : Addr, u.cur.toNat ≤ x.toNat → x ≤ u.bcast →
        SiblingExcluded u.net u.bcast u.self u.opts x)) ∧
    (¬ Safe i s → stEos t.st = stEos s.st ∧ stAct t.st = stAct s.st) ∧
    ((∀ ma bb o, i ≠ .sstart ma bb o) → (∀ bd, i ≠ .snext bd) →
      stEos t.st = stEos s.st ∧ stAct t.st = stAct s.st)) ∧
  (∀ (cw : CmdWord) (din : DinWord) (rest : List HostEvent) (e : DecodeError) (s t : State),
    s.inputs = .command cw din :: rest → decode cw = .error e → step s = .next t →
      stEos t.st = stEos s.st ∧ stAct t.st = stAct s.st)

/-! ### Frames over all commands -/

/-- 10 R31: `SR` is written by the six scalar commands and by nothing else, and not by a failing one. -/
def Obligations.OnlyScalarCommandsWriteSR : Prop :=
  ∀ (i : Instr) (s t : State), exec i s = .next t → t.sr ≠ s.sr → writesSR i = true ∧ Safe i s

/-- 10 R32: `DOUT` is written by `BRD` and `MRD` and by nothing else, and not by a failing one. -/
def Obligations.OnlyReadoutCommandsWriteDOUT : Prop :=
  ∀ (i : Instr) (s t : State), exec i s = .next t → t.dout ≠ s.dout → writesDOUT i = true ∧ Safe i s

/-- 10 R23: a buffer register changes only as the destination of a successful writer of buffer registers. -/
def Obligations.OnlyTheDestinationBufferChanges : Prop :=
  ∀ (i : Instr) (s t : State) (j : RegIdx), exec i s = .next t → t.readB j ≠ s.readB j →
    bufferDest i = some j ∧ Safe i s

/-- 10 R29: a mask register changes only as the destination of a successful writer of mask registers. -/
def Obligations.OnlyTheDestinationMaskChanges : Prop :=
  ∀ (i : Instr) (s t : State) (j : RegIdx), exec i s = .next t → t.readM j ≠ s.readM j →
    maskDest i = some j ∧ Safe i s

/-- 10 R40: `SSTART` writes all of `IT`, `SNEXT` writes `cur`, no other command writes `IT`. -/
def Obligations.OnlyIteratorCommandsWriteTheIterator : Prop :=
  ∀ (i : Instr) (s t : State), exec i s = .next t →
    (∀ bd, i = .snext bd → s.it = none ∧ t.it = none ∨ ∃ u c, s.it = some u ∧ t.it = some { u with cur := c }) ∧
    ((∀ ma bb o, i ≠ .sstart ma bb o) → (∀ bd, i ≠ .snext bd) → t.it = s.it)

/-- No command touches what the host presents (00 R14, 70 R246): the model's two fields of the host's side are moved by the
step alone (log entries 1 and 2). -/
def Obligations.CommandsLeaveTheHostSideAlone : Prop :=
  ∀ (i : Instr) (s t : State), exec i s = .next t → t.din = s.din ∧ t.inputs = s.inputs

/-- 20 R64, R65, 30 R87: only `BLD`, `MFC`, `MEXT`, `MABR` depend on `DIN`; `BLD` on the bits of its `len` bytes, the other
three on `DIN[31:0]`. -/
def Obligations.UnusedOperandDataIsIgnored : Prop :=
  ∀ (i : Instr) (s t : State) (d d' : DinWord),
    (readsDIN i = true → (∃ bd len, i = .bld bd len ∧ ∀ j, j < 8 * len.toNat → d.getLsbD (127 - j) = d'.getLsbD (127 - j)) ∨
      (∀ bd len, i ≠ .bld bd len) ∧ d.extractLsb' 0 32 = d'.extractLsb' 0 32) →
    exec i { s with din := d } = .next t → exec i { s with din := d' } = .next { t with din := d' }

/-! ### Transfer and control -/

/-- 43 R195. -/
def Obligations.ClreClearsTheErrorRecord : Prop :=
  decode (commandWord 0x01 0 0 0 0 0 0) = .ok .clre ∧
  ∀ s : State, exec .clre s = .next { s with st := s.st &&& 0x8C#8 }

/-- 43 R190: the bytes of `DIN` from the top; `len` in 17..31 does not decode and raises `IllegalCommand`.
The fields `inputs` and `din` are the host's side, kept as the model chose (log entries 1 and 2). -/
def Obligations.BldLoadsTheBytesOfDin : Prop :=
  ∀ (bd : RegIdx) (len : BitVec 5),
    (16 < len.toNat → (∃ e, decode (commandWord 0x02 bd 0 0 len.toNat 0 0) = .error e) ∧
      ∀ (s : State) (din : DinWord) (rest : List HostEvent),
        s.inputs = .command (commandWord 0x02 bd 0 0 len.toNat 0 0) din :: rest →
        step s = .next { s with inputs := rest, din := din, st := (s.st &&& 0xFC#8) ||| 0x43#8 }) ∧
    (len.toNat ≤ 16 → decode (commandWord 0x02 bd 0 0 len.toNat 0 0) = .ok (.bld bd len)) ∧
    ∀ s : State, len.toNat ≤ 16 → ∃ r : List Byte,
      exec (.bld bd len) s = .next { s with b := s.b.set bd (some r), st := s.st &&& 0xFC#8 } ∧ r.length = len.toNat ∧
      ∀ i, i < len.toNat → r[i]? = some (s.din.extractLsb' (120 - 8 * i) 8)

/-- 43 R191. -/
def Obligations.BclrMakesABufferAbsent : Prop :=
  ∀ bd : RegIdx, decode (commandWord 0x03 bd 0 0 0 0 0) = .ok (.bclr bd) ∧
    ∀ s : State, exec (.bclr bd) s = .next { s with b := s.b.set bd none, st := s.st &&& 0xFC#8 }

/-- 43 R192: the copy in `DOUT` is the buffer's bytes, with 0x00 beyond its length. -/
def Obligations.BrdCopiesABufferToTheLatch : Prop :=
  ∀ ba : RegIdx, decode (commandWord 0x04 0 ba 0 0 0 0) = .ok (.brd ba) ∧
    (∀ s : State, s.readB ba = none → exec (.brd ba) s = .next { s with st := (s.st &&& 0xFC#8) ||| 0x11#8 }) ∧
    ∀ (s : State) (a : List Byte), s.readB ba = some a → a.length ≤ 16 → ∃ d : OutLatch,
      exec (.brd ba) s = .next { s with dout := d, st := s.st &&& 0xFC#8 } ∧ d.len.toNat = a.length ∧
      ∀ j : Fin 16, d.data[j] = if j.val < a.length then a.getD j 0 else 0

/-- 43 R193: the copy in `DOUT` is the mask's 4 bytes, big-endian, with 0x00 beyond them. -/
def Obligations.MrdCopiesAMaskToTheLatch : Prop :=
  ∀ ma : RegIdx, decode (commandWord 0x05 0 ma 0 0 0 0) = .ok (.mrd ma) ∧
    (∀ s : State, s.readM ma = none → exec (.mrd ma) s = .next { s with st := (s.st &&& 0xFC#8) ||| 0x11#8 }) ∧
    ∀ (s : State) (m : Mask), s.readM ma = some m → ∃ d : OutLatch,
      exec (.mrd ma) s = .next { s with dout := d, st := s.st &&& 0xFC#8 } ∧ d.len = 4 ∧
      ∀ j : Fin 16, d.data[j] = if j.val < 4 then m.extractLsb' (24 - 8 * j.val) 8 else 0

/-- 43 R194. -/
def Obligations.MclrMakesAMaskAbsent : Prop :=
  ∀ md : RegIdx, decode (commandWord 0x06 md 0 0 0 0 0) = .ok (.mclr md) ∧
    ∀ s : State, exec (.mclr md) s = .next { s with m := s.m.set md none, st := s.st &&& 0xFC#8 }

/-! ### The bitwise buffer engine -/

/-- 40 R111: byte by byte, the shorter operand padded with zero bytes at its end. -/
def Obligations.BandCombinesPaddedBuffers : Prop :=
  ∀ bd ba bb : RegIdx, decode (commandWord 0x08 bd ba bb 0 0 0) = .ok (.band bd ba bb) ∧
    (∀ s : State, s.readB ba = none ∨ s.readB bb = none →
      exec (.band bd ba bb) s = .next { s with st := (s.st &&& 0xFC#8) ||| 0x11#8 }) ∧
    ∀ (s : State) (a b : List Byte), s.readB ba = some a → s.readB bb = some b → ∃ r : List Byte,
      exec (.band bd ba bb) s = .next { s with b := s.b.set bd (some r), st := s.st &&& 0xFC#8 } ∧
      r.length = max a.length b.length ∧
      ∀ i, i < max a.length b.length → r[i]? = some (a.getD i 0 &&& b.getD i 0)

/-- 40 R112. -/
def Obligations.BorCombinesPaddedBuffers : Prop :=
  ∀ bd ba bb : RegIdx, decode (commandWord 0x09 bd ba bb 0 0 0) = .ok (.bor bd ba bb) ∧
    (∀ s : State, s.readB ba = none ∨ s.readB bb = none →
      exec (.bor bd ba bb) s = .next { s with st := (s.st &&& 0xFC#8) ||| 0x11#8 }) ∧
    ∀ (s : State) (a b : List Byte), s.readB ba = some a → s.readB bb = some b → ∃ r : List Byte,
      exec (.bor bd ba bb) s = .next { s with b := s.b.set bd (some r), st := s.st &&& 0xFC#8 } ∧
      r.length = max a.length b.length ∧
      ∀ i, i < max a.length b.length → r[i]? = some (a.getD i 0 ||| b.getD i 0)

/-- 40 R113. -/
def Obligations.BxorCombinesPaddedBuffers : Prop :=
  ∀ bd ba bb : RegIdx, decode (commandWord 0x0A bd ba bb 0 0 0) = .ok (.bxor bd ba bb) ∧
    (∀ s : State, s.readB ba = none ∨ s.readB bb = none →
      exec (.bxor bd ba bb) s = .next { s with st := (s.st &&& 0xFC#8) ||| 0x11#8 }) ∧
    ∀ (s : State) (a b : List Byte), s.readB ba = some a → s.readB bb = some b → ∃ r : List Byte,
      exec (.bxor bd ba bb) s = .next { s with b := s.b.set bd (some r), st := s.st &&& 0xFC#8 } ∧
      r.length = max a.length b.length ∧
      ∀ i, i < max a.length b.length → r[i]? = some (a.getD i 0 ^^^ b.getD i 0)

/-- 40 R114: the complement of each byte, at the same length. -/
def Obligations.BnotComplementsEachByte : Prop :=
  ∀ bd ba : RegIdx, decode (commandWord 0x0B bd ba 0 0 0 0) = .ok (.bnot bd ba) ∧
    (∀ s : State, s.readB ba = none →
      exec (.bnot bd ba) s = .next { s with st := (s.st &&& 0xFC#8) ||| 0x11#8 }) ∧
    ∀ (s : State) (a : List Byte), s.readB ba = some a → ∃ r : List Byte,
      exec (.bnot bd ba) s = .next { s with b := s.b.set bd (some r), st := s.st &&& 0xFC#8 } ∧
      r.length = a.length ∧ ∀ i, i < a.length → r[i]? = some (~~~(a.getD i 0))

/-- 40 R118 and R115: the largest `k` such that every stream position below `k` holds `v`. -/
def Obligations.CntlCountsTheLeadingRun : Prop :=
  ∀ (ba : RegIdx) (v : Bool), decode (commandWord 0x0C 0 ba 0 0 0 v.toNat) = .ok (.cntl ba v) ∧
    (∀ s : State, s.readB ba = none →
      exec (.cntl ba v) s = .next { s with st := (s.st &&& 0xFC#8) ||| 0x11#8 }) ∧
    ∀ (s : State) (a : List Byte), s.readB ba = some a → ∃ k : Nat,
      exec (.cntl ba v) s = .next { s with sr := BitVec.ofNat 64 k, st := s.st &&& 0xFC#8 } ∧
      k ≤ 8 * a.length ∧ (∀ p, p < k → streamBit a p = v) ∧ (k < 8 * a.length → streamBit a k ≠ v)

/-- 40 R119 and R116: the largest `k` such that every stream position from `8*len - k` on holds `v`. -/
def Obligations.CnttCountsTheTrailingRun : Prop :=
  ∀ (ba : RegIdx) (v : Bool), decode (commandWord 0x0D 0 ba 0 0 0 v.toNat) = .ok (.cntt ba v) ∧
    (∀ s : State, s.readB ba = none →
      exec (.cntt ba v) s = .next { s with st := (s.st &&& 0xFC#8) ||| 0x11#8 }) ∧
    ∀ (s : State) (a : List Byte), s.readB ba = some a → ∃ k : Nat,
      exec (.cntt ba v) s = .next { s with sr := BitVec.ofNat 64 k, st := s.st &&& 0xFC#8 } ∧
      k ≤ 8 * a.length ∧ (∀ p, 8 * a.length - k ≤ p → p < 8 * a.length → streamBit a p = v) ∧
      (k < 8 * a.length → streamBit a (8 * a.length - 1 - k) ≠ v)

/-- 40 R120: 1 when the leading ones and the trailing zeros make up the whole buffer, that is when it is a run of 1s followed
by 0s, else 0; never an error for a present buffer. -/
def Obligations.BvalidTellsPrefixPatterns : Prop :=
  ∀ ba : RegIdx, decode (commandWord 0x0E 0 ba 0 0 0 0) = .ok (.bvalid ba) ∧
    (∀ s : State, s.readB ba = none →
      exec (.bvalid ba) s = .next { s with st := (s.st &&& 0xFC#8) ||| 0x11#8 }) ∧
    ∀ (s : State) (a : List Byte), s.readB ba = some a → ∃ r : BitVec 64,
      exec (.bvalid ba) s = .next { s with sr := r, st := s.st &&& 0xFC#8 } ∧
      r = (if countLeading a true + countTrailing a false = 8 * a.length then 1 else 0) ∧
      (r = 1 ↔ OnesThenZeros a)

/-- The laws of the bitwise family. Derived: the spec marks "the length laws and the last inequality" of 40 R121 as its own
inference. -/
def Obligations.BitwiseFamilyLaws : Prop :=
  (∀ (bd ba bb : RegIdx) (s : State), exec (.band bd ba bb) s = exec (.band bd bb ba) s ∧
    exec (.bor bd ba bb) s = exec (.bor bd bb ba) s ∧ exec (.bxor bd ba bb) s = exec (.bxor bd bb ba) s) ∧
  (∀ (bd ba bb : RegIdx) (s : State) (a b : List Byte), s.readB ba = some a → s.readB bb = some b →
    ∀ i, i = .band bd ba bb ∨ i = .bor bd ba bb ∨ i = .bxor bd ba bb →
      ∃ t r, exec i s = .next t ∧ t.readB bd = some r ∧ r.length = max a.length b.length) ∧
  (∀ (bd be ba : RegIdx) (s : State) (a : List Byte), s.readB ba = some a → ∃ t u r,
    exec (.bnot bd ba) s = .next t ∧ t.readB bd = some r ∧ r.length = a.length ∧
    exec (.bnot be bd) t = .next u ∧ u.readB be = some a) ∧
  (∀ (a : List Byte) (v : Bool), a.length ≤ 16 → countLeading a v ≤ 128 ∧ countTrailing a v ≤ 128) ∧
  (∀ (a : List Byte), countLeading a true + countTrailing a false ≤ 8 * a.length ∧
    (countLeading a true + countTrailing a false = 8 * a.length ↔ OnesThenZeros a))

/-- Validity of a buffer of any length (40 R117), and for a 4-byte buffer that it is being `cidrmask(n)` for some `n` in 0..32,
that `n` being the leading-ones count. Derived: the spec marks "the last sentence" of R117 as its own inference. -/
def Obligations.ValidFourByteBuffersArePrefixMasks : Prop :=
  (∀ a : List Byte, (validMask a = true ↔ countLeading a true + countTrailing a false = 8 * a.length) ∧
    (validMask a = true ↔ OnesThenZeros a)) ∧
  ∀ b0 b1 b2 b3 : Byte,
    (validMask [b0, b1, b2, b3] = true ↔ ∃ n, n ≤ 32 ∧ addrOf b0 b1 b2 b3 = cidrmask n) ∧
    ∀ n, n ≤ 32 → addrOf b0 b1 b2 b3 = cidrmask n → n = countLeading [b0, b1, b2, b3] true

/-! ### The network-mask unit -/

/-- 10 R30: `cidrmask(n)` bit by bit and by value, `cidr(u)` as the largest `k` with bits 31 down to `32-k` all 1, and that
`cidr(cidrmask(n)) = n`. -/
def Obligations.CidrmaskAndCidrAreInverse : Prop :=
  (∀ n, n ≤ 32 → (∀ p, p < 32 → (cidrmask n).getLsbD (31 - p) = decide (p < n)) ∧
    (cidrmask n).toNat = (if n = 0 then 0 else 2 ^ 32 - 2 ^ (32 - n)) ∧ cidr (cidrmask n) = n) ∧
  (∀ u : BitVec 32, cidr u ≤ 32 ∧ (∀ p, p < cidr u → u.getLsbD (31 - p) = true) ∧
    (cidr u < 32 → u.getLsbD (31 - cidr u) = false))

/-- 41 R132: the mask whose first `n` bits are 1; `n` outside 0..32 is an error. -/
def Obligations.MfcMakesTheMaskOfALength : Prop :=
  ∀ md : RegIdx, decode (commandWord 0x10 md 0 0 0 0 0) = .ok (.mfc md) ∧
    ∀ (s : State) (n : Int), (s.din.extractLsb' 0 32).toInt = n →
      (n < 0 ∨ n > 32 → exec (.mfc md) s = .next { s with st := (s.st &&& 0xFC#8) ||| 0x11#8 }) ∧
      (0 ≤ n → n ≤ 32 → ∃ u : Mask,
        exec (.mfc md) s = .next { s with m := s.m.set md (some u), st := s.st &&& 0xFC#8 } ∧
        ∀ p, p < 32 → u.getLsbD (31 - p) = decide ((p : Int) < n))

/-- 41 R133: the mask validator. -/
def Obligations.MfbTakesValidFourByteBuffers : Prop :=
  ∀ md ba : RegIdx, decode (commandWord 0x11 md ba 0 0 0 0) = .ok (.mfb md ba) ∧
    (∀ s : State, (s.readB ba = none ∨ (∃ a, s.readB ba = some a ∧ a.length ≠ 4) ∨
        (∃ a, s.readB ba = some a ∧ ¬ OnesThenZeros a)) →
      exec (.mfb md ba) s = .next { s with st := (s.st &&& 0xFC#8) ||| 0x11#8 }) ∧
    ∀ (s : State) (b0 b1 b2 b3 : Byte), s.readB ba = some [b0, b1, b2, b3] → OnesThenZeros [b0, b1, b2, b3] →
      exec (.mfb md ba) s = .next { s with m := s.m.set md (some (addrOf b0 b1 b2 b3)), st := s.st &&& 0xFC#8 }

/-- 41 R134. -/
def Obligations.MempMakesTheEmptyMask : Prop :=
  ∀ md : RegIdx, decode (commandWord 0x12 md 0 0 0 0 0) = .ok (.memp md) ∧
    ∀ s : State, exec (.memp md) s = .next { s with m := s.m.set md (some 0x00000000#32), st := s.st &&& 0xFC#8 }

/-- 41 R135: the number of leading 1 bits. -/
def Obligations.McidrCountsTheLeadingOnes : Prop :=
  ∀ ma : RegIdx, decode (commandWord 0x13 0 ma 0 0 0 0) = .ok (.mcidr ma) ∧
    (∀ s : State, s.readM ma = none →
      exec (.mcidr ma) s = .next { s with st := (s.st &&& 0xFC#8) ||| 0x11#8 }) ∧
    ∀ (s : State) (m : Mask), s.readM ma = some m → ∃ k : Nat,
      exec (.mcidr ma) s = .next { s with sr := BitVec.ofNat 64 k, st := s.st &&& 0xFC#8 } ∧
      k ≤ 32 ∧ (∀ p, p < k → m.getLsbD (31 - p) = true) ∧ (k < 32 → m.getLsbD (31 - k) = false) ∧
      (IsPrefixMask m → k = 32 - countTrailing (bytes4 m) false)

/-- 41 R136: the 4 bytes of the mask, big-endian. -/
def Obligations.MtbGivesTheMaskBytes : Prop :=
  ∀ bd ma : RegIdx, decode (commandWord 0x14 bd ma 0 0 0 0) = .ok (.mtb bd ma) ∧
    (∀ s : State, s.readM ma = none →
      exec (.mtb bd ma) s = .next { s with st := (s.st &&& 0xFC#8) ||| 0x11#8 }) ∧
    ∀ (s : State) (m : Mask), s.readM ma = some m → ∃ b0 b1 b2 b3 : Byte, m = addrOf b0 b1 b2 b3 ∧
      exec (.mtb bd ma) s = .next { s with b := s.b.set bd (some [b0, b1, b2, b3]), st := s.st &&& 0xFC#8 }

/-- 41 R137: the 32-bit AND, which for valid masks is the mask of the shorter prefix. -/
def Obligations.MandIntersectsMasks : Prop :=
  ∀ md ma mb : RegIdx, decode (commandWord 0x15 md ma mb 0 0 0) = .ok (.mand md ma mb) ∧
    (∀ s : State, s.readM ma = none ∨ s.readM mb = none →
      exec (.mand md ma mb) s = .next { s with st := (s.st &&& 0xFC#8) ||| 0x11#8 }) ∧
    ∀ (s : State) (a b : Mask), s.readM ma = some a → s.readM mb = some b → ∃ r : Mask,
      exec (.mand md ma mb) s = .next { s with m := s.m.set md (some r), st := s.st &&& 0xFC#8 } ∧
      (∀ j, j < 32 → r.getLsbD j = (a.getLsbD j && b.getLsbD j)) ∧
      (IsPrefixMask a → IsPrefixMask b → r = cidrmask (min (cidr a) (cidr b)))

/-- 41 R138: the 32-bit OR with the absent mask as the identity; never an error. -/
def Obligations.MorUnitesMasksWithAbsentIdentity : Prop :=
  ∀ md ma mb : RegIdx, decode (commandWord 0x16 md ma mb 0 0 0) = .ok (.mor md ma mb) ∧
    ∀ s : State, ∃ r : Option Mask,
      exec (.mor md ma mb) s = .next { s with m := s.m.set md r, st := s.st &&& 0xFC#8 } ∧
      (s.readM ma = none → r = s.readM mb) ∧ (s.readM mb = none → r = s.readM ma) ∧
      ∀ a b : Mask, s.readM ma = some a → s.readM mb = some b → ∃ u : Mask, r = some u ∧
        (∀ j, j < 32 → u.getLsbD j = (a.getLsbD j || b.getLsbD j)) ∧
        (IsPrefixMask a → IsPrefixMask b → u = cidrmask (max (cidr a) (cidr b)))

/-- 41 R139: the exact sum of the length and `by`, clamped into 0..32. -/
def Obligations.MextLengthensThePrefixClamped : Prop :=
  ∀ md ma : RegIdx, decode (commandWord 0x17 md ma 0 0 0 0) = .ok (.mext md ma) ∧
    (∀ s : State, s.readM ma = none →
      exec (.mext md ma) s = .next { s with st := (s.st &&& 0xFC#8) ||| 0x11#8 }) ∧
    ∀ (s : State) (m : Mask), s.readM ma = some m → ∃ k : Nat,
      (k : Int) = max (min ((cidr m : Int) + (s.din.extractLsb' 0 32).toInt) 32) 0 ∧
      exec (.mext md ma) s = .next { s with m := s.m.set md (some (cidrmask k)), st := s.st &&& 0xFC#8 }

/-- 41 R140: the exact difference of the length and `by`, clamped into 0..32. -/
def Obligations.MabrShortensThePrefixClamped : Prop :=
  ∀ md ma : RegIdx, decode (commandWord 0x18 md ma 0 0 0 0) = .ok (.mabr md ma) ∧
    (∀ s : State, s.readM ma = none →
      exec (.mabr md ma) s = .next { s with st := (s.st &&& 0xFC#8) ||| 0x11#8 }) ∧
    ∀ (s : State) (m : Mask), s.readM ma = some m → ∃ k : Nat,
      (k : Int) = max (min ((cidr m : Int) - (s.din.extractLsb' 0 32).toInt) 32) 0 ∧
      exec (.mabr md ma) s = .next { s with m := s.m.set md (some (cidrmask k)), st := s.st &&& 0xFC#8 }

/-- 41 R141: 1 exactly when all 32 bits agree. -/
def Obligations.MeqComparesMasks : Prop :=
  ∀ ma mb : RegIdx, decode (commandWord 0x19 0 ma mb 0 0 0) = .ok (.meq ma mb) ∧
    (∀ s : State, s.readM ma = none ∨ s.readM mb = none →
      exec (.meq ma mb) s = .next { s with st := (s.st &&& 0xFC#8) ||| 0x11#8 }) ∧
    ∀ (s : State) (a b : Mask), s.readM ma = some a → s.readM mb = some b → ∃ r : BitVec 64,
      exec (.meq ma mb) s = .next { s with sr := r, st := s.st &&& 0xFC#8 } ∧
      (r = 1 ∨ r = 0) ∧ (r = 1 ↔ ∀ j, j < 32 → a.getLsbD j = b.getLsbD j) ∧
      (IsPrefixMask a → IsPrefixMask b → (r = 1 ↔ cidr a = cidr b))

/-- `MFC` then `MCIDR` gives the length back, and `MTB` then `MFB` gives the mask back. Derived: the spec marks "Round trip. For
every `c` in 0..32, ..." (41 R144) as its own inference. -/
def Obligations.MaskRoundTrips : Prop :=
  (∀ (md : RegIdx) (s : State) (c : Nat), c ≤ 32 → s.din.extractLsb' 0 32 = BitVec.ofNat 32 c → ∃ t u,
    exec (.mfc md) s = .next t ∧ exec (.mcidr md) t = .next u ∧ u.sr.toNat = c) ∧
  (∀ (bd ms md : RegIdx) (s : State) (m : Mask), s.readM ms = some m → IsPrefixMask m → ∃ t u,
    exec (.mtb bd ms) s = .next t ∧ exec (.mfb md bd) t = .next u ∧ stCode u.st = 0 ∧ u.readM md = some m)

/-! ### The subnet-topology unit -/

/-- 42 R162: the bitwise AND of mask and address bytes. -/
def Obligations.NpfxExtractsTheNetworkPrefix : Prop :=
  ∀ bd ma bb : RegIdx, decode (commandWord 0x20 bd ma bb 0 0 0) = .ok (.npfx bd ma bb) ∧
    (∀ s : State, s.readM ma = none ∨ s.readB bb = none →
      exec (.npfx bd ma bb) s = .next { s with st := (s.st &&& 0xFC#8) ||| 0x11#8 }) ∧
    (∀ (s : State) (m : Mask) (a : List Byte), s.readM ma = some m → s.readB bb = some a → a.length ≠ 4 →
      exec (.npfx bd ma bb) s = .next { s with st := (s.st &&& 0xFC#8) ||| 0x22#8 }) ∧
    ∀ (s : State) (m0 m1 m2 m3 a0 a1 a2 a3 : Byte), s.readM ma = some (addrOf m0 m1 m2 m3) →
      s.readB bb = some [a0, a1, a2, a3] →
      exec (.npfx bd ma bb) s = .next { s with
        b := s.b.set bd (some [m0 &&& a0, m1 &&& a1, m2 &&& a2, m3 &&& a3]), st := s.st &&& 0xFC#8 }

/-- 42 R163: the bitwise AND of the complemented mask and the address. -/
def Obligations.HostidExtractsTheHostIdentifier : Prop :=
  ∀ bd ma bb : RegIdx, decode (commandWord 0x21 bd ma bb 0 0 0) = .ok (.hostid bd ma bb) ∧
    (∀ s : State, s.readM ma = none ∨ s.readB bb = none →
      exec (.hostid bd ma bb) s = .next { s with st := (s.st &&& 0xFC#8) ||| 0x11#8 }) ∧
    (∀ (s : State) (m : Mask) (a : List Byte), s.readM ma = some m → s.readB bb = some a → a.length ≠ 4 →
      exec (.hostid bd ma bb) s = .next { s with st := (s.st &&& 0xFC#8) ||| 0x22#8 }) ∧
    ∀ (s : State) (m0 m1 m2 m3 a0 a1 a2 a3 : Byte), s.readM ma = some (addrOf m0 m1 m2 m3) →
      s.readB bb = some [a0, a1, a2, a3] →
      exec (.hostid bd ma bb) s = .next { s with
        b := s.b.set bd (some [~~~m0 &&& a0, ~~~m1 &&& a1, ~~~m2 &&& a2, ~~~m3 &&& a3]), st := s.st &&& 0xFC#8 }

/-- 42 R169: prefix OR host identifier is the address, prefix AND host identifier is 0.0.0.0, through the bitwise engine. -/
def Obligations.PrefixAndHostPartitionTheAddress : Prop :=
  ∀ (bp bq bx bz ma bb : RegIdx) (s : State) (m : Mask) (a : List Byte), bq ≠ bp → bp ≠ bb → bx ≠ bp → bx ≠ bq →
    s.readM ma = some m → s.readB bb = some a → a.length = 4 → ∃ t u v w,
      exec (.npfx bp ma bb) s = .next t ∧ exec (.hostid bq ma bb) t = .next u ∧
      exec (.bor bx bp bq) u = .next v ∧ v.readB bx = some a ∧
      exec (.band bz bp bq) v = .next w ∧ w.readB bz = some [0, 0, 0, 0]

/-- 42 R165: the closed formula, exact, with the policy of R164 at CIDR 32. -/
def Obligations.ScntGivesTheClosedForm : Prop :=
  ∀ (ma bb : RegIdx) (o : SibOpts),
    decode (commandWord 0x22 0 ma bb 0 (o.includeSelf.toNat + 2 * o.includeBroadcast.toNat + 4 * o.includeNetId.toNat) 0) =
      .ok (.scnt ma bb o) ∧
    (∀ s : State, s.readM ma = none ∨ s.readB bb = none →
      exec (.scnt ma bb o) s = .next { s with st := (s.st &&& 0xFC#8) ||| 0x11#8 }) ∧
    (∀ (s : State) (m : Mask) (a : List Byte), s.readM ma = some m → s.readB bb = some a → a.length ≠ 4 →
      exec (.scnt ma bb o) s = .next { s with st := (s.st &&& 0xFC#8) ||| 0x22#8 }) ∧
    ∀ (s : State) (m self net bcast : Addr) (a0 a1 a2 a3 : Byte), s.readM ma = some m →
      s.readB bb = some [a0, a1, a2, a3] → self = addrOf a0 a1 a2 a3 → net = m &&& self → bcast = net ||| ~~~m →
      ∃ k : Nat, exec (.scnt ma bb o) s = .next { s with sr := BitVec.ofNat 64 k, st := s.st &&& 0xFC#8 } ∧
        (cidr m = 32 → k = if o.includeSelf then 1 else 0) ∧
        (cidr m ≠ 32 → (k : Int) = 2 ^ (32 - cidr m) - (if o.includeNetId then 0 else 1) -
          (if o.includeBroadcast then 0 else 1) -
          (if o.includeSelf ∨ (self = net ∧ ¬ o.includeNetId) ∨ (self = bcast ∧ ¬ o.includeBroadcast) then 0 else 1))

/-- The closed form is the number of siblings (42 R164, and "the result is the number of `x` in `net..bcast` with `excluded(x)`
false" in R165's corner cases). -/
def Obligations.SiblingCountIsTheNumberOfSiblings : Prop :=
  ∀ (ma bb : RegIdx) (o : SibOpts) (s : State) (m : Mask) (a0 a1 a2 a3 : Byte), s.readM ma = some m → IsPrefixMask m →
    s.readB bb = some [a0, a1, a2, a3] →
    ∃ t, exec (.scnt ma bb o) s = .next t ∧ t.sr.toNat = (siblings m (addrOf a0 a1 a2 a3) o).length

/-- 42 R166: the iterator written whole from its operands, `ACT` set and `EOS` cleared. -/
def Obligations.SstartBeginsAnEnumeration : Prop :=
  ∀ (ma bb : RegIdx) (o : SibOpts),
    decode (commandWord 0x23 0 ma bb 0 (o.includeSelf.toNat + 2 * o.includeBroadcast.toNat + 4 * o.includeNetId.toNat) 0) =
      .ok (.sstart ma bb o) ∧
    (∀ s : State, s.readM ma = none ∨ s.readB bb = none →
      exec (.sstart ma bb o) s = .next { s with st := (s.st &&& 0xFC#8) ||| 0x11#8 }) ∧
    (∀ (s : State) (m : Mask) (a : List Byte), s.readM ma = some m → s.readB bb = some a → a.length ≠ 4 →
      exec (.sstart ma bb o) s = .next { s with st := (s.st &&& 0xFC#8) ||| 0x22#8 }) ∧
    ∀ (s : State) (m self net : Addr) (a0 a1 a2 a3 : Byte), s.readM ma = some m →
      s.readB bb = some [a0, a1, a2, a3] → self = addrOf a0 a1 a2 a3 → net = m &&& self →
      ∃ t : Iter, exec (.sstart ma bb o) s = .next { s with it := some t, st := (s.st &&& 0xF0#8) ||| 0x08#8 } ∧
        t.net = net ∧ t.bcast = net ||| ~~~m ∧ t.self = self ∧ t.opts = o ∧ t.cur.toNat = net.toNat

/-- 42 R167: the least candidate from `cur` on that is not excluded is delivered, or the end is reported. -/
def Obligations.SnextDeliversTheNextSibling : Prop :=
  ∀ bd : RegIdx, decode (commandWord 0x24 bd 0 0 0 0 0) = .ok (.snext bd) ∧
    (∀ s : State, s.it = none → exec (.snext bd) s = .next { s with st := (s.st &&& 0xFC#8) ||| 0x11#8 }) ∧
    ∀ (s : State) (t : Iter), s.it = some t → t.Inv → ∃ c : Nat, t.cur.toNat ≤ c ∧ c ≤ t.cur.toNat + 3 ∧
      (∀ x, t.cur.toNat ≤ x → x < c → x ≤ t.bcast.toNat ∧
        SiblingExcluded t.net t.bcast t.self t.opts (BitVec.ofNat 32 x)) ∧
      (c ≤ t.bcast.toNat → ¬ SiblingExcluded t.net t.bcast t.self t.opts (BitVec.ofNat 32 c) ∧
        ∃ b0 b1 b2 b3 : Byte, addrOf b0 b1 b2 b3 = BitVec.ofNat 32 c ∧
        exec (.snext bd) s = .next { s with
          b := s.b.set bd (some [b0, b1, b2, b3]),
          it := some { t with cur := BitVec.ofNat 33 (c + 1) }, st := s.st &&& 0xF8#8 }) ∧
      (t.bcast.toNat < c → exec (.snext bd) s = .next { s with
          it := some { t with cur := BitVec.ofNat 33 c }, st := (s.st &&& 0xF8#8) ||| 0x04#8 })

/-- The sequence law: after a successful `SSTART` the successive `SNEXT` commands deliver exactly the siblings, each once, in
ascending order, then the end; and their number is what `SCNT` gives. Derived: the spec marks "the equality with `SCNT`" of
42 R168 as its own inference. -/
def Obligations.EnumerationDeliversTheSiblingsInOrder : Prop :=
  ∀ (ma bb : RegIdx) (o : SibOpts) (s : State) (m self net bcast : Addr) (a0 a1 a2 a3 : Byte),
    s.readM ma = some m → IsPrefixMask m → s.readB bb = some [a0, a1, a2, a3] → self = addrOf a0 a1 a2 a3 →
    net = m &&& self → bcast = net ||| ~~~m →
    (∀ x, x ∈ siblings m self o ↔ net ≤ x ∧ x ≤ bcast ∧ ¬ SiblingExcluded net bcast self o x) ∧
    (siblings m self o).Pairwise (fun x y => x < y) ∧
    (∃ t, exec (.sstart ma bb o) s = .next t ∧ ∀ (bd : RegIdx) (n : Nat), (siblings m self o).length < n →
      deliveries bd n t = (siblings m self o).map fun x => some (bytes4 x)) ∧
    ∃ u, exec (.scnt ma bb o) s = .next u ∧ u.sr.toNat = (siblings m self o).length

/-! ### The response port -/

/-- 20 R67: what the response port shows of the state; byte `i` of `DOUT.data` stands at bits `127-8i : 120-8i`. -/
def Obligations.ResponsePortShowsTheState : Prop :=
  ∀ s : State, s.response.st = s.st ∧ s.response.sr = s.sr ∧ s.response.doutLen = s.dout.len ∧
    ∀ i : Fin 16, s.response.doutData.extractLsb' (120 - 8 * i.val) 8 = s.dout.data[i]
end

