-- ==== Sys2Proof/Laws/Encoding.lean ====
section
/-! SUPPORT. The command word as a number (30 R81), and that its fields read back: the base of the round trips. -/

namespace Sys2Proof

theorem optsToBits_toNat (o : SibOpts) :
    (optsToBits o).toNat = o.includeSelf.toNat + 2 * o.includeBroadcast.toNat + 4 * o.includeNetId.toNat := by
  rcases o with ⟨a, b, c⟩; cases a <;> cases b <;> cases c <;> rfl

@[simp] theorem optsOfBits_optsToBits (o : SibOpts) : optsOfBits (optsToBits o) = o := by
  rcases o with ⟨a, b, c⟩; cases a <;> cases b <;> cases c <;> rfl

@[simp] theorem optsToBits_optsOfBits (o : BitVec 3) : optsToBits (optsOfBits o) = o := by revert o; decide

/-- The command word is the sum of its fields at their places (30 R81). -/
theorem wordOf_toNat (f : Fields) :
    (wordOf f).toNat = f.op.toNat * 2 ^ 26 + f.rd.val * 2 ^ 23 + f.ra.val * 2 ^ 20 + f.rb.val * 2 ^ 17 +
      f.len.toNat * 2 ^ 12 + (optsToBits f.opts).toNat * 2 ^ 9 + f.v.toNat * 2 ^ 8 := by
  have h1 : (BitVec.ofFin (w := 3) f.rd).toNat < 2 ^ 3 := BitVec.isLt _
  have h2 : (BitVec.ofFin (w := 3) f.ra).toNat < 2 ^ 3 := BitVec.isLt _
  have h3 : (BitVec.ofFin (w := 3) f.rb).toNat < 2 ^ 3 := BitVec.isLt _
  have h6 : f.v.toNat < 2 ^ 1 := by cases f.v <;> decide
  have h7 : (0#8).toNat < 2 ^ 8 := by decide
  unfold wordOf
  simp only [BitVec.toNat_append, BitVec.toNat_ofBool]
  rw [← Nat.shiftLeft_add_eq_or_of_lt h1, ← Nat.shiftLeft_add_eq_or_of_lt h2, ← Nat.shiftLeft_add_eq_or_of_lt h3,
    ← Nat.shiftLeft_add_eq_or_of_lt f.len.isLt, ← Nat.shiftLeft_add_eq_or_of_lt (optsToBits f.opts).isLt,
    ← Nat.shiftLeft_add_eq_or_of_lt h6, ← Nat.shiftLeft_add_eq_or_of_lt h7]
  simp only [Nat.shiftLeft_eq, BitVec.toNat_ofFin, show (0#8).toNat = 0 from rfl]; omega

/-- Every field of a command word reads back (30 R81). -/
theorem fieldsOf_wordOf (f : Fields) : fieldsOf (wordOf f) = f := by
  have hw := wordOf_toNat f
  have h0 := f.op.isLt; have h1 := f.rd.isLt; have h2 := f.ra.isLt; have h3 := f.rb.isLt; have h4 := f.len.isLt
  have h5 := (optsToBits f.opts).isLt
  have h6 : f.v.toNat < 2 := by cases f.v <;> decide
  have e0 : opField (wordOf f) = f.op := by
    apply BitVec.eq_of_toNat_eq
    rw [opField, BitVec.extractLsb'_toNat, Nat.shiftRight_eq_div_pow, hw]; omega
  have e1 : regField (wordOf f) 23 = f.rd := by
    apply Fin.ext
    change ((wordOf f).extractLsb' 23 3).toNat = _
    rw [BitVec.extractLsb'_toNat, Nat.shiftRight_eq_div_pow, hw]; omega
  have e2 : regField (wordOf f) 20 = f.ra := by
    apply Fin.ext
    change ((wordOf f).extractLsb' 20 3).toNat = _
    rw [BitVec.extractLsb'_toNat, Nat.shiftRight_eq_div_pow, hw]; omega
  have e3 : regField (wordOf f) 17 = f.rb := by
    apply Fin.ext
    change ((wordOf f).extractLsb' 17 3).toNat = _
    rw [BitVec.extractLsb'_toNat, Nat.shiftRight_eq_div_pow, hw]; omega
  have e4 : (wordOf f).extractLsb' 12 5 = f.len := by
    apply BitVec.eq_of_toNat_eq
    rw [BitVec.extractLsb'_toNat, Nat.shiftRight_eq_div_pow, hw]; omega
  have e5 : (wordOf f).extractLsb' 9 3 = optsToBits f.opts := by
    apply BitVec.eq_of_toNat_eq
    rw [BitVec.extractLsb'_toNat, Nat.shiftRight_eq_div_pow, hw]; omega
  have e6 : (wordOf f).getLsbD 8 = f.v := by
    rw [BitVec.getLsbD, Nat.testBit_eq_decide_div_mod_eq, hw]
    cases f.v <;> simp <;> omega
  simp only [fieldsOf, e0, e1, e2, e3, e4, e5, e6, optsOfBits_optsToBits]

/-- The word that 30 R81's formula gives is the word of the fields. -/
theorem commandWord_eq_wordOf (f : Fields) :
    Machine.commandWord f.op.toNat f.rd f.ra f.rb f.len.toNat (optsToBits f.opts).toNat f.v.toNat = wordOf f := by
  apply BitVec.eq_of_toNat_eq
  rw [Machine.commandWord, BitVec.toNat_ofNat, ← wordOf_toNat, Nat.mod_eq_of_lt (wordOf f).isLt]

end Sys2Proof
end

