-- ==== Sys2Proof/Laws/Flags.lean ====
section
/-! SUPPORT. What each write of the status register leaves in each of its fields, and its effect as one mask of bits. -/

namespace Sys2Proof.Machine

variable (st : Status)

/-! ### Each write as a mask of bits -/

theorem stOk_eq : stOk st = st &&& 0xFC#8 := by revert st; decide

theorem stFail_invalidArgument : stFail st .invalidArgument = (st &&& 0xFC#8) ||| 0x11#8 := by revert st; decide

theorem stFail_unsupported : stFail st .unsupported = (st &&& 0xFC#8) ||| 0x22#8 := by revert st; decide

theorem stFail_illegalCommand : stFail st .illegalCommand = (st &&& 0xFC#8) ||| 0x43#8 := by revert st; decide

theorem stClearErrors_eq : stClearErrors st = st &&& 0x8C#8 := by revert st; decide

theorem stOk_start : stOk (stSetEos (stSetAct st true) false) = (st &&& 0xF0#8) ||| 0x08#8 := by revert st; decide

theorem stOk_delivered : stOk (stSetEos st false) = st &&& 0xF8#8 := by revert st; decide

theorem stOk_ended : stOk (stSetEos st true) = (st &&& 0xF8#8) ||| 0x04#8 := by revert st; decide

/-! ### The fields after a success -/

@[simp] theorem stCode_stOk : stCode (stOk st) = 0 := by revert st; decide
@[simp] theorem stEos_stOk : stEos (stOk st) = stEos st := by revert st; decide
@[simp] theorem stAct_stOk : stAct (stOk st) = stAct st := by revert st; decide
@[simp] theorem stEia_stOk : stEia (stOk st) = stEia st := by revert st; decide
@[simp] theorem stEun_stOk : stEun (stOk st) = stEun st := by revert st; decide
@[simp] theorem stEil_stOk : stEil (stOk st) = stEil st := by revert st; decide
@[simp] theorem reserved_stOk : (stOk st).getLsbD 7 = st.getLsbD 7 := by revert st; decide

/-! ### The fields after a failure -/

variable (k : ErrorKind)

@[simp] theorem stCode_stFail : stCode (stFail st k) = k.code := by cases k <;> revert st <;> decide
@[simp] theorem stEos_stFail : stEos (stFail st k) = stEos st := by cases k <;> revert st <;> decide
@[simp] theorem stAct_stFail : stAct (stFail st k) = stAct st := by cases k <;> revert st <;> decide
@[simp] theorem stEia_stFail : stEia (stFail st k) = (stEia st || k == .invalidArgument) := by
  cases k <;> revert st <;> decide
@[simp] theorem stEun_stFail : stEun (stFail st k) = (stEun st || k == .unsupported) := by
  cases k <;> revert st <;> decide
@[simp] theorem stEil_stFail : stEil (stFail st k) = (stEil st || k == .illegalCommand) := by
  cases k <;> revert st <;> decide
@[simp] theorem reserved_stFail : (stFail st k).getLsbD 7 = st.getLsbD 7 := by cases k <;> revert st <;> decide

/-! ### The fields after CLRE -/

@[simp] theorem stCode_stClearErrors : stCode (stClearErrors st) = 0 := by revert st; decide
@[simp] theorem stEos_stClearErrors : stEos (stClearErrors st) = stEos st := by revert st; decide
@[simp] theorem stAct_stClearErrors : stAct (stClearErrors st) = stAct st := by revert st; decide
@[simp] theorem stEia_stClearErrors : stEia (stClearErrors st) = false := by revert st; decide
@[simp] theorem stEun_stClearErrors : stEun (stClearErrors st) = false := by revert st; decide
@[simp] theorem stEil_stClearErrors : stEil (stClearErrors st) = false := by revert st; decide
@[simp] theorem reserved_stClearErrors : (stClearErrors st).getLsbD 7 = st.getLsbD 7 := by revert st; decide

/-! ### The fields after the writes of EOS and ACT -/

variable (v : Bool)

@[simp] theorem stEos_stSetEos : stEos (stSetEos st v) = v := by cases v <;> revert st <;> decide
@[simp] theorem stAct_stSetEos : stAct (stSetEos st v) = stAct st := by cases v <;> revert st <;> decide
@[simp] theorem stEia_stSetEos : stEia (stSetEos st v) = stEia st := by cases v <;> revert st <;> decide
@[simp] theorem stEun_stSetEos : stEun (stSetEos st v) = stEun st := by cases v <;> revert st <;> decide
@[simp] theorem stEil_stSetEos : stEil (stSetEos st v) = stEil st := by cases v <;> revert st <;> decide
@[simp] theorem reserved_stSetEos : (stSetEos st v).getLsbD 7 = st.getLsbD 7 := by cases v <;> revert st <;> decide
@[simp] theorem stEos_stSetAct : stEos (stSetAct st v) = stEos st := by cases v <;> revert st <;> decide
@[simp] theorem stAct_stSetAct : stAct (stSetAct st v) = v := by cases v <;> revert st <;> decide
@[simp] theorem stEia_stSetAct : stEia (stSetAct st v) = stEia st := by cases v <;> revert st <;> decide
@[simp] theorem stEun_stSetAct : stEun (stSetAct st v) = stEun st := by cases v <;> revert st <;> decide
@[simp] theorem stEil_stSetAct : stEil (stSetAct st v) = stEil st := by cases v <;> revert st <;> decide
@[simp] theorem reserved_stSetAct : (stSetAct st v).getLsbD 7 = st.getLsbD 7 := by cases v <;> revert st <;> decide

end Sys2Proof.Machine
end

