-- ==== Sys2Proof/Laws/State.lean ====
section
/-! SUPPORT. The fields of the state after each register write, one lemma per field per update, so that no later proof unfolds
a record update. -/

namespace Sys2Proof.Machine

variable (s : State) (i j : RegIdx) (v : Option (List Byte)) (w : Option Mask) (n : Nat) (a : List Byte)

/-! ### The register written -/

@[simp] theorem State.writeB_b : (s.writeB i v).b = s.b.set i v := rfl
@[simp] theorem State.writeM_m : (s.writeM i w).m = s.m.set i w := rfl
@[simp] theorem State.writeSR_sr : (s.writeSR n).sr = BitVec.ofNat 64 n := rfl
@[simp] theorem State.writeDOUT_dout : (s.writeDOUT a).dout = ⟨BitVec.ofNat 5 a.length, padLatch a⟩ := rfl

@[simp] theorem State.readB_writeB_self : (s.writeB i v).readB i = v := by
  simp [State.readB, State.writeB]

@[simp] theorem State.readM_writeM_self : (s.writeM i w).readM i = w := by
  simp [State.readM, State.writeM]

theorem State.readB_writeB (s : State) (i j : RegIdx) (v : Option (List Byte)) :
    (s.writeB i v).readB j = if i = j then v else s.readB j := by
  simp [State.readB, State.writeB, Vector.getElem_set, Fin.ext_iff]

theorem State.readM_writeM (s : State) (i j : RegIdx) (w : Option Mask) :
    (s.writeM i w).readM j = if i = j then w else s.readM j := by
  simp [State.readM, State.writeM, Vector.getElem_set, Fin.ext_iff]

variable {s i j v w n a}

@[simp] theorem State.readB_writeB_of_ne (h : i ≠ j) : (s.writeB i v).readB j = s.readB j := by
  rw [State.readB_writeB, if_neg h]

@[simp] theorem State.readM_writeM_of_ne (h : i ≠ j) : (s.writeM i w).readM j = s.readM j := by
  rw [State.readM_writeM, if_neg h]

variable (s i j v w n a)

/-! ### Reads of the other registers -/

@[simp] theorem State.readM_writeB : (s.writeB i v).readM j = s.readM j := rfl
@[simp] theorem State.readB_writeM : (s.writeM i w).readB j = s.readB j := rfl
@[simp] theorem State.readB_writeSR : (s.writeSR n).readB j = s.readB j := rfl
@[simp] theorem State.readM_writeSR : (s.writeSR n).readM j = s.readM j := rfl
@[simp] theorem State.readB_writeDOUT : (s.writeDOUT a).readB j = s.readB j := rfl
@[simp] theorem State.readM_writeDOUT : (s.writeDOUT a).readM j = s.readM j := rfl

/-! ### The fields not written -/

@[simp] theorem State.writeB_m : (s.writeB i v).m = s.m := rfl
@[simp] theorem State.writeB_sr : (s.writeB i v).sr = s.sr := rfl
@[simp] theorem State.writeB_dout : (s.writeB i v).dout = s.dout := rfl
@[simp] theorem State.writeB_st : (s.writeB i v).st = s.st := rfl
@[simp] theorem State.writeB_it : (s.writeB i v).it = s.it := rfl
@[simp] theorem State.writeB_din : (s.writeB i v).din = s.din := rfl
@[simp] theorem State.writeB_inputs : (s.writeB i v).inputs = s.inputs := rfl
@[simp] theorem State.writeM_b : (s.writeM i w).b = s.b := rfl
@[simp] theorem State.writeM_sr : (s.writeM i w).sr = s.sr := rfl
@[simp] theorem State.writeM_dout : (s.writeM i w).dout = s.dout := rfl
@[simp] theorem State.writeM_st : (s.writeM i w).st = s.st := rfl
@[simp] theorem State.writeM_it : (s.writeM i w).it = s.it := rfl
@[simp] theorem State.writeM_din : (s.writeM i w).din = s.din := rfl
@[simp] theorem State.writeM_inputs : (s.writeM i w).inputs = s.inputs := rfl
@[simp] theorem State.writeSR_b : (s.writeSR n).b = s.b := rfl
@[simp] theorem State.writeSR_m : (s.writeSR n).m = s.m := rfl
@[simp] theorem State.writeSR_dout : (s.writeSR n).dout = s.dout := rfl
@[simp] theorem State.writeSR_st : (s.writeSR n).st = s.st := rfl
@[simp] theorem State.writeSR_it : (s.writeSR n).it = s.it := rfl
@[simp] theorem State.writeSR_din : (s.writeSR n).din = s.din := rfl
@[simp] theorem State.writeSR_inputs : (s.writeSR n).inputs = s.inputs := rfl
@[simp] theorem State.writeDOUT_b : (s.writeDOUT a).b = s.b := rfl
@[simp] theorem State.writeDOUT_m : (s.writeDOUT a).m = s.m := rfl
@[simp] theorem State.writeDOUT_sr : (s.writeDOUT a).sr = s.sr := rfl
@[simp] theorem State.writeDOUT_st : (s.writeDOUT a).st = s.st := rfl
@[simp] theorem State.writeDOUT_it : (s.writeDOUT a).it = s.it := rfl
@[simp] theorem State.writeDOUT_din : (s.writeDOUT a).din = s.din := rfl
@[simp] theorem State.writeDOUT_inputs : (s.writeDOUT a).inputs = s.inputs := rfl

end Sys2Proof.Machine
end

