-- ==== Sys2Proof/Laws/Ops.lean ====
section
/-! SUPPORT. What each shared operation can do, once: how a command ends, the operand checks, the elementwise combination and
the output latch. -/

namespace Sys2Proof.Machine

/-! ### How a command ends -/

theorem State.succeed_eq (s : State) : s.succeed = .next { s with st := s.st &&& 0xFC#8 } := by
  rw [State.succeed, stOk_eq]

theorem State.raise_invalidArgument (s : State) :
    s.raise .invalidArgument = .next { s with st := (s.st &&& 0xFC#8) ||| 0x11#8 } := by
  rw [State.raise, stFail_invalidArgument]

theorem State.raise_unsupported (s : State) :
    s.raise .unsupported = .next { s with st := (s.st &&& 0xFC#8) ||| 0x22#8 } := by
  rw [State.raise, stFail_unsupported]

theorem State.raise_illegalCommand (s : State) :
    s.raise .illegalCommand = .next { s with st := (s.st &&& 0xFC#8) ||| 0x43#8 } := by
  rw [State.raise, stFail_illegalCommand]

/-! ### Operands -/

/-- A buffer operand either is absent and raises, or is present and goes on. -/
theorem State.needB_cases (s : State) (i : RegIdx) (k : List Byte → Outcome) :
    (s.readB i = none ∧ s.needB i k = s.raise .invalidArgument) ∨ ∃ a, s.readB i = some a ∧ s.needB i k = k a := by
  unfold State.needB
  cases h : s.readB i with
  | none => exact .inl ⟨rfl, rfl⟩
  | some a => exact .inr ⟨a, rfl, rfl⟩

@[simp] theorem State.needB_none {s : State} {i : RegIdx} {k : List Byte → Outcome} (h : s.readB i = none) :
    s.needB i k = s.raise .invalidArgument := by
  simp [State.needB, h]

@[simp] theorem State.needB_some {s : State} {i : RegIdx} {k : List Byte → Outcome} {a : List Byte}
    (h : s.readB i = some a) : s.needB i k = k a := by
  simp [State.needB, h]

/-- A mask operand either is absent and raises, or is present and goes on. -/
theorem State.needM_cases (s : State) (i : RegIdx) (k : Mask → Outcome) :
    (s.readM i = none ∧ s.needM i k = s.raise .invalidArgument) ∨ ∃ m, s.readM i = some m ∧ s.needM i k = k m := by
  unfold State.needM
  cases h : s.readM i with
  | none => exact .inl ⟨rfl, rfl⟩
  | some m => exact .inr ⟨m, rfl, rfl⟩

@[simp] theorem State.needM_none {s : State} {i : RegIdx} {k : Mask → Outcome} (h : s.readM i = none) :
    s.needM i k = s.raise .invalidArgument := by
  simp [State.needM, h]

@[simp] theorem State.needM_some {s : State} {i : RegIdx} {k : Mask → Outcome} {m : Mask} (h : s.readM i = some m) :
    s.needM i k = k m := by
  simp [State.needM, h]

/-- The operands of the topology unit: one is absent, or the address has another length than 4, or the command goes on. -/
theorem State.needSubnet_cases (s : State) (mi bi : RegIdx) (k : Mask → Addr → Outcome) :
    ((s.readM mi = none ∨ s.readB bi = none) ∧ s.needSubnet mi bi k = s.raise .invalidArgument) ∨
    ∃ m a, s.readM mi = some m ∧ s.readB bi = some a ∧
      ((a.length ≠ 4 ∧ s.needSubnet mi bi k = s.raise .unsupported) ∨
        (a.length = 4 ∧ s.needSubnet mi bi k = k m (u32 a))) := by
  unfold State.needSubnet
  rcases s.needM_cases mi _ with ⟨hm, h⟩ | ⟨m, hm, h⟩ <;> rw [h]
  · exact .inl ⟨.inl hm, rfl⟩
  · rcases s.needB_cases bi _ with ⟨hb, h⟩ | ⟨a, hb, h⟩ <;> rw [h]
    · exact .inl ⟨.inr hb, rfl⟩
    · refine .inr ⟨m, a, hm, hb, ?_⟩
      by_cases h4 : a.length = 4 <;> simp [isIpv4, Config.maskBytes, h4]

theorem State.needSubnet_absent {s : State} {mi bi : RegIdx} {k : Mask → Addr → Outcome}
    (h : s.readM mi = none ∨ s.readB bi = none) : s.needSubnet mi bi k = s.raise .invalidArgument := by
  rcases s.needSubnet_cases mi bi k with ⟨-, e⟩ | ⟨m, a, hm, hb, -⟩
  · exact e
  · simp [hm, hb] at h

theorem State.needSubnet_notIpv4 {s : State} {mi bi : RegIdx} {k : Mask → Addr → Outcome} {m : Mask} {a : List Byte}
    (hm : s.readM mi = some m) (hb : s.readB bi = some a) (h : a.length ≠ 4) :
    s.needSubnet mi bi k = s.raise .unsupported := by
  simp [State.needSubnet, hm, hb, isIpv4, Config.maskBytes, h]

theorem State.needSubnet_ipv4 {s : State} {mi bi : RegIdx} {k : Mask → Addr → Outcome} {m : Mask} {a : List Byte}
    (hm : s.readM mi = some m) (hb : s.readB bi = some a) (h : a.length = 4) :
    s.needSubnet mi bi k = k m (u32 a) := by
  simp [State.needSubnet, hm, hb, isIpv4, Config.maskBytes, h]

/-! ### Elementwise combination -/

@[simp] theorem pad_length (a : List Byte) (n : Nat) : (pad a n).length = max a.length n := by
  simp [pad]; omega

theorem pad_getElem? (a : List Byte) (n i : Nat) (h : i < max a.length n) : (pad a n)[i]? = some (a.getD i 0) := by
  unfold pad
  by_cases hi : i < a.length
  · simp [List.getElem?_append_left hi, List.getD_eq_getElem?_getD, List.getElem?_eq_getElem hi]
  · rw [List.getElem?_append_right (by omega), List.getElem?_replicate, if_pos (by omega)]
    simp [List.getD_eq_getElem?_getD, List.getElem?_eq_none (Nat.le_of_not_lt hi)]

@[simp] theorem combine_length (f : Byte → Byte → Byte) (a b : List Byte) :
    (combine f a b).length = max a.length b.length := by
  simp [combine]

/-- Every byte of a combination, a missing byte of the shorter operand reading as 0x00 (40 R122). -/
theorem combine_getElem? (f : Byte → Byte → Byte) (a b : List Byte) (i : Nat) (h : i < max a.length b.length) :
    (combine f a b)[i]? = some (f (a.getD i 0) (b.getD i 0)) := by
  simp only [combine]
  rw [List.getElem?_zipWith, pad_getElem? _ _ _ (by omega), pad_getElem? _ _ _ (by omega)]

theorem combine_comm {f : Byte → Byte → Byte} (hf : ∀ x y, f x y = f y x) (a b : List Byte) :
    combine f a b = combine f b a := by
  unfold combine
  rw [Nat.max_comm a.length]
  exact List.zipWith_comm_of_comm hf

/-! ### The output latch -/

theorem padLatch_getElem (a : List Byte) (j : Nat) (hj : j < 16) :
    (padLatch a)[j] = if j < a.length then a.getD j 0 else 0 := by
  simp only [padLatch, Vector.getElem_mk, List.getElem_toArray, List.getElem_take]
  by_cases h : j < a.length
  · simp [h, List.getElem_append_left h, List.getD_eq_getElem?_getD]
  · rw [if_neg h, List.getElem_append_right (Nat.le_of_not_lt h), List.getElem_replicate]; rfl

end Sys2Proof.Machine
end

