-- ==== Sys2Proof/Laws/Stream.lean ====
section
/-! SUPPORT. The bit stream of a buffer by position, and the run lengths as what 40 R115 and R116 say of them. -/

namespace Sys2Proof.Machine

/-! ### The bit stream -/

theorem byteBits_length (x : Byte) : (byteBits x).length = 8 := rfl

theorem byteBits_getElem? (x : Byte) (q : Nat) (h : q < 8) : (byteBits x)[q]? = some (x.getLsbD (7 - q)) := by
  match q, h with
  | 0, _ | 1, _ | 2, _ | 3, _ | 4, _ | 5, _ | 6, _ | 7, _ => rfl

@[simp] theorem bitStream_length (b : List Byte) : (bitStream b).length = 8 * b.length := by
  induction b with
  | nil => rfl
  | cons x b ih =>
    have : bitStream (x :: b) = byteBits x ++ bitStream b := rfl
    rw [this, List.length_append, ih, byteBits_length, List.length_cons]; omega

theorem bitStream_getElem? (b : List Byte) (p : Nat) (h : p < 8 * b.length) :
    (bitStream b)[p]? = some (streamBit b p) := by
  induction b generalizing p with
  | nil => simp at h
  | cons x b ih =>
    have : bitStream (x :: b) = byteBits x ++ bitStream b := rfl
    rw [this]
    by_cases hp : p < 8
    · rw [List.getElem?_append_left (by rwa [byteBits_length]), byteBits_getElem? x p hp]
      simp [streamBit, Nat.div_eq_of_lt hp, Nat.mod_eq_of_lt hp]
    · rw [List.getElem?_append_right (by rw [byteBits_length]; omega), byteBits_length,
        ih (p - 8) (by simp at h; omega)]
      have h1 : p / 8 = (p - 8) / 8 + 1 := by omega
      have h2 : p % 8 = (p - 8) % 8 := by omega
      simp only [streamBit, h1, h2, List.getD_cons_succ]

/-! ### Run lengths -/

theorem runLength_le (v : Bool) (l : List Bool) : runLength v l ≤ l.length := by
  induction l with
  | nil => simp [runLength]
  | cons x l ih => by_cases h : x = v <;> simp [runLength, h]; omega

theorem runLength_run (v : Bool) (l : List Bool) (p : Nat) (h : p < runLength v l) : l[p]? = some v := by
  induction l generalizing p with
  | nil => simp [runLength] at h
  | cons x l ih =>
    by_cases hx : x = v
    · cases p with
      | zero => simp [hx]
      | succ p => simpa using ih p (by simpa [runLength, hx] using h)
    · simp [runLength, hx] at h

theorem runLength_stop (v : Bool) (l : List Bool) (h : runLength v l < l.length) : l[runLength v l]? = some (!v) := by
  induction l with
  | nil => simp [runLength] at h
  | cons x l ih =>
    by_cases hx : x = v
    · simp only [runLength, hx, if_pos, List.getElem?_cons_succ]
      exact ih (by simpa [runLength, hx] using h)
    · cases x <;> cases v <;> simp_all [runLength]

/-- The run length is the one number that stops where 40 R115 says. -/
theorem runLength_unique (v : Bool) (l : List Bool) (k : Nat) (hk : k ≤ l.length) (hrun : ∀ p, p < k → l[p]? = some v)
    (hstop : k < l.length → l[k]? = some (!v)) : runLength v l = k := by
  have hle := runLength_le v l
  rcases Nat.lt_trichotomy (runLength v l) k with h | h | h
  · have h1 := runLength_stop v l (by omega)
    rw [hrun _ h] at h1; cases v <;> simp at h1
  · exact h
  · have h1 := runLength_run v l k h
    rw [hstop (by omega)] at h1; cases v <;> simp at h1

/-- `count_leading` (40 R115): the largest `k` such that every position below `k` holds `v`. -/
theorem countLeading_spec (a : List Byte) (v : Bool) :
    countLeading a v ≤ 8 * a.length ∧ (∀ p, p < countLeading a v → streamBit a p = v) ∧
      (countLeading a v < 8 * a.length → streamBit a (countLeading a v) = !v) := by
  have hle : countLeading a v ≤ 8 * a.length := by simpa [countLeading] using runLength_le v (bitStream a)
  refine ⟨hle, fun p hp => ?_, fun h => ?_⟩
  · have := runLength_run v (bitStream a) p hp
    rwa [bitStream_getElem? a p (by omega), Option.some_inj] at this
  · have := runLength_stop v (bitStream a) (by simpa [countLeading] using h)
    change (bitStream a)[countLeading a v]? = some (!v) at this
    rwa [bitStream_getElem? a _ h, Option.some_inj] at this

theorem bitStream_reverse_getElem? (a : List Byte) (p : Nat) (h : p < 8 * a.length) :
    (bitStream a).reverse[p]? = some (streamBit a (8 * a.length - 1 - p)) := by
  rw [List.getElem?_reverse (by simpa using h), bitStream_length, bitStream_getElem? a _ (by omega)]

/-- `count_trailing` (40 R116): the largest `k` such that every position from `8*len - k` on holds `v`. -/
theorem countTrailing_spec (a : List Byte) (v : Bool) :
    countTrailing a v ≤ 8 * a.length ∧
      (∀ p, 8 * a.length - countTrailing a v ≤ p → p < 8 * a.length → streamBit a p = v) ∧
      (countTrailing a v < 8 * a.length → streamBit a (8 * a.length - 1 - countTrailing a v) = !v) := by
  have hle : countTrailing a v ≤ 8 * a.length := by
    simpa [countTrailing] using runLength_le v (bitStream a).reverse
  refine ⟨hle, fun p h1 h2 => ?_, fun h => ?_⟩
  · have := runLength_run v (bitStream a).reverse (8 * a.length - 1 - p)
      (by change _ < countTrailing a v; omega)
    rw [bitStream_reverse_getElem? a _ (by omega), Option.some_inj] at this
    rwa [show 8 * a.length - 1 - (8 * a.length - 1 - p) = p by omega] at this
  · have := runLength_stop v (bitStream a).reverse (by simpa [countTrailing] using h)
    change (bitStream a).reverse[countTrailing a v]? = some (!v) at this
    rwa [bitStream_reverse_getElem? a _ h, Option.some_inj] at this

/-- The leading ones and the trailing zeros never overlap (40 R121). -/
theorem leading_trailing_le (a : List Byte) : countLeading a true + countTrailing a false ≤ 8 * a.length := by
  obtain ⟨h1, h2, -⟩ := countLeading_spec a true
  obtain ⟨h3, h4, -⟩ := countTrailing_spec a false
  by_contra hc
  have e1 := h2 (countLeading a true - 1) (by omega)
  have e2 := h4 (countLeading a true - 1) (by omega) (by omega)
  rw [e1] at e2; cases e2

/-- The two runs make up the whole stream exactly when it is a run of 1s followed by 0s (40 R117). -/
theorem leading_trailing_eq_iff (a : List Byte) :
    countLeading a true + countTrailing a false = 8 * a.length ↔ OnesThenZeros a := by
  obtain ⟨h1, h2, h2'⟩ := countLeading_spec a true
  obtain ⟨h3, h4, h4'⟩ := countTrailing_spec a false
  constructor
  · intro h
    refine ⟨countLeading a true, h1, fun p hp => ?_⟩
    by_cases hc : p < countLeading a true
    · simp [hc, h2 p hc]
    · simp [hc, h4 p (by omega) hp]
  · rintro ⟨n, hn, hb⟩
    have hl : countLeading a true = n := by
      rcases Nat.lt_trichotomy (countLeading a true) n with h | h | h
      · have e := h2' (by omega); rw [hb _ (by omega)] at e; simp at e; omega
      · exact h
      · have e := h2 n h; rw [hb _ (by omega)] at e; simp at e
    have ht : countTrailing a false = 8 * a.length - n := by
      rcases Nat.lt_trichotomy (countTrailing a false) (8 * a.length - n) with h | h | h
      · have e := h4' (by omega); rw [hb _ (by omega)] at e; simp at e; omega
      · exact h
      · have e := h4 (n - 1) (by omega) (by omega); rw [hb _ (by omega)] at e; simp at e; omega
    omega

end Sys2Proof.Machine
end

