-- ==== Sys2Proof/Laws/Masks.lean ====
section
/-! SUPPORT. Masks and 32-bit values: the bytes of a value, `cidrmask` and `cidr` bit by bit (10 R30), and prefix masks. -/

namespace Sys2Proof.Machine

/-! ### Bytes of a 32-bit value -/

@[simp] theorem bytes4_length (u : BitVec 32) : (bytes4 u).length = 4 := rfl

theorem append4_toNat (b0 b1 b2 b3 : Byte) :
    (b0 ++ b1 ++ b2 ++ b3 : BitVec 32).toNat = b0.toNat * 2 ^ 24 + b1.toNat * 2 ^ 16 + b2.toNat * 2 ^ 8 + b3.toNat := by
  have h0 := b0.isLt; have h1 := b1.isLt; have h2 := b2.isLt; have h3 := b3.isLt
  simp only [BitVec.toNat_append]
  rw [← Nat.shiftLeft_add_eq_or_of_lt h1, ← Nat.shiftLeft_add_eq_or_of_lt h2, ← Nat.shiftLeft_add_eq_or_of_lt h3]
  simp only [Nat.shiftLeft_eq]; omega

theorem u32_eq_addrOf (b0 b1 b2 b3 : Byte) : u32 [b0, b1, b2, b3] = addrOf b0 b1 b2 b3 := by
  rw [addrOf, ← append4_toNat, BitVec.ofNat_toNat, BitVec.setWidth_eq]; rfl

/-- A buffer of length 4 is four bytes. -/
theorem exists_bytes_of_length {a : List Byte} (h : a.length = 4) : ∃ b0 b1 b2 b3, a = [b0, b1, b2, b3] := by
  match a, h with
  | [b0, b1, b2, b3], _ => exact ⟨b0, b1, b2, b3, rfl⟩

theorem bytes4_u32 {a : List Byte} (h : a.length = 4) : bytes4 (u32 a) = a := by
  obtain ⟨b0, b1, b2, b3, rfl⟩ := exists_bytes_of_length h
  have h0 := b0.isLt; have h1 := b1.isLt; have h2 := b2.isLt; have h3 := b3.isLt
  change bytes4 (b0 ++ b1 ++ b2 ++ b3) = _
  simp only [bytes4, List.cons.injEq, and_true]
  refine ⟨?_, ?_, ?_, ?_⟩ <;> apply BitVec.eq_of_toNat_eq <;>
    rw [BitVec.extractLsb'_toNat, append4_toNat, Nat.shiftRight_eq_div_pow] <;> omega

theorem bytes4_addrOf (b0 b1 b2 b3 : Byte) : bytes4 (addrOf b0 b1 b2 b3) = [b0, b1, b2, b3] := by
  rw [← u32_eq_addrOf]; exact bytes4_u32 rfl

theorem u32_bytes4 (u : BitVec 32) : u32 (bytes4 u) = u := by
  apply BitVec.eq_of_toNat_eq
  change (u.extractLsb' 24 8 ++ u.extractLsb' 16 8 ++ u.extractLsb' 8 8 ++ u.extractLsb' 0 8 : BitVec 32).toNat = _
  have h := u.isLt
  rw [append4_toNat]
  simp only [BitVec.extractLsb'_toNat, Nat.shiftRight_eq_div_pow]; omega

/-- Every 32-bit value is that of four bytes, its own (00 R9). -/
theorem exists_addrOf (u : BitVec 32) : ∃ b0 b1 b2 b3, u = addrOf b0 b1 b2 b3 ∧ bytes4 u = [b0, b1, b2, b3] :=
  ⟨_, _, _, _, (u32_bytes4 u).symm.trans (u32_eq_addrOf _ _ _ _), rfl⟩

/-- Stream position `p` of the four bytes of `u` is bit `31 - p` of `u` (00 R9). -/
theorem streamBit_bytes4 (u : BitVec 32) (p : Nat) (_h : p < 32) : streamBit (bytes4 u) p = u.getLsbD (31 - p) := by
  interval_cases p <;> simp [streamBit, bytes4]

/-! ### cidrmask -/

theorem cidrmask_toNat (n : Nat) : (cidrmask n).toNat = 2 ^ 32 - 2 ^ (32 - n) := by
  have : 0 < 2 ^ (32 - n) := Nat.two_pow_pos _
  rw [cidrmask, BitVec.toNat_ofNat, Nat.mod_eq_of_lt (by omega)]

theorem cidrmask_getLsbD (n i : Nat) (hn : n ≤ 32) (hi : i < 32) :
    (cidrmask n).getLsbD i = decide (32 - n ≤ i) := by
  have : ∀ n : Fin 33, ∀ i : Fin 32, (cidrmask n).getLsbD i = decide (32 - n.val ≤ i.val) := by decide
  exact this ⟨n, by omega⟩ ⟨i, hi⟩

theorem cidrmask_and (a b : Nat) (ha : a ≤ 32) (hb : b ≤ 32) : cidrmask a &&& cidrmask b = cidrmask (min a b) := by
  apply BitVec.eq_of_getLsbD_eq
  intro i hi
  rw [BitVec.getLsbD_and, cidrmask_getLsbD _ _ ha hi, cidrmask_getLsbD _ _ hb hi, cidrmask_getLsbD _ _ (by omega) hi,
    ← Bool.decide_and]
  exact decide_eq_decide.mpr (by omega)

theorem cidrmask_or (a b : Nat) (ha : a ≤ 32) (hb : b ≤ 32) : cidrmask a ||| cidrmask b = cidrmask (max a b) := by
  apply BitVec.eq_of_getLsbD_eq
  intro i hi
  rw [BitVec.getLsbD_or, cidrmask_getLsbD _ _ ha hi, cidrmask_getLsbD _ _ hb hi, cidrmask_getLsbD _ _ (by omega) hi,
    ← Bool.decide_or]
  exact decide_eq_decide.mpr (by omega)

/-! ### cidr -/

theorem cidr_eq_countLeading (u : Mask) : cidr u = countLeading (bytes4 u) true := rfl

/-- `cidr(u)` (10 R30): the largest `k` with bits 31 down to `32-k` all 1. -/
theorem cidr_spec (u : Mask) :
    cidr u ≤ 32 ∧ (∀ p, p < cidr u → u.getLsbD (31 - p) = true) ∧ (cidr u < 32 → u.getLsbD (31 - cidr u) = false) := by
  obtain ⟨h1, h2, h3⟩ := countLeading_spec (bytes4 u) true
  rw [← cidr_eq_countLeading, bytes4_length] at h1 h3
  refine ⟨h1, fun p hp => ?_, fun h => ?_⟩
  · rw [← streamBit_bytes4 u p (by omega)]; exact h2 p hp
  · rw [← streamBit_bytes4 u _ h]; exact h3 h

theorem cidr_cidrmask (n : Nat) (h : n ≤ 32) : cidr (cidrmask n) = n := by
  obtain ⟨h1, h2, h3⟩ := cidr_spec (cidrmask n)
  rcases Nat.lt_trichotomy (cidr (cidrmask n)) n with hc | hc | hc
  · have := h3 (by omega); rw [cidrmask_getLsbD _ _ h (by omega)] at this; simp at this; omega
  · exact hc
  · have := h2 n hc; rw [cidrmask_getLsbD _ _ h (by omega)] at this; simp at this; omega

theorem cidrmask_inj {a b : Nat} (ha : a ≤ 32) (hb : b ≤ 32) (h : cidrmask a = cidrmask b) : a = b := by
  rw [← cidr_cidrmask a ha, h, cidr_cidrmask b hb]

/-! ### Prefix masks -/

theorem isPrefixMask_cidrmask {n : Nat} (h : n ≤ 32) : IsPrefixMask (cidrmask n) := ⟨n, h, rfl⟩

/-- A prefix mask is the mask of its own length. -/
theorem IsPrefixMask.eq {m : Mask} (h : IsPrefixMask m) : cidrmask (cidr m) = m := by
  obtain ⟨n, hn, rfl⟩ := h
  rw [cidr_cidrmask n hn]

theorem IsPrefixMask.and {a b : Mask} (ha : IsPrefixMask a) (hb : IsPrefixMask b) : IsPrefixMask (a &&& b) := by
  obtain ⟨n, hn, rfl⟩ := ha
  obtain ⟨k, hk, rfl⟩ := hb
  exact ⟨min n k, by omega, cidrmask_and n k hn hk⟩

theorem IsPrefixMask.or {a b : Mask} (ha : IsPrefixMask a) (hb : IsPrefixMask b) : IsPrefixMask (a ||| b) := by
  obtain ⟨n, hn, rfl⟩ := ha
  obtain ⟨k, hk, rfl⟩ := hb
  exact ⟨max n k, by omega, cidrmask_or n k hn hk⟩

/-- The clamp of 41 R139 always makes a prefix mask. -/
theorem isPrefixMask_clampMask (t : Int) : IsPrefixMask (clampMask t) := ⟨_, by omega, rfl⟩

/-- The bytes of a mask are ones then zeros exactly when it is a prefix mask (40 R117). -/
theorem onesThenZeros_bytes4 (u : Mask) : OnesThenZeros (bytes4 u) ↔ IsPrefixMask u := by
  constructor
  · rintro ⟨n, hn, hb⟩
    rw [bytes4_length] at hn hb
    refine ⟨n, hn, BitVec.eq_of_getLsbD_eq fun i hi => ?_⟩
    have := hb (31 - i) (by omega)
    rw [streamBit_bytes4 u _ (by omega), show 31 - (31 - i) = i by omega] at this
    rw [this, cidrmask_getLsbD n i hn hi]
    exact decide_eq_decide.mpr (by omega)
  · rintro ⟨n, hn, rfl⟩
    refine ⟨n, hn, fun p hp => ?_⟩
    rw [bytes4_length] at hp
    rw [streamBit_bytes4 _ _ hp, cidrmask_getLsbD n _ hn (by omega)]
    exact decide_eq_decide.mpr (by omega)

theorem validMask_iff (a : List Byte) : validMask a = true ↔ OnesThenZeros a := by
  rw [← leading_trailing_eq_iff, validMask, beq_iff_eq]

/-- A valid 4-byte buffer holds a prefix mask (41 R133). -/
theorem isPrefixMask_of_validMask {a : List Byte} (h4 : a.length = 4) (hv : validMask a = true) :
    IsPrefixMask (u32 a) := by
  rw [← onesThenZeros_bytes4, bytes4_u32 h4]; exact (validMask_iff a).mp hv

end Sys2Proof.Machine
end

