-- ==== Sys2Proof/Laws/PerInstr.lean ====
section
/-! SUPPORT. The statements made of every instruction, one lemma per constructor: every field of an instruction's word reads
back, the unused ones as 0. -/

namespace Sys2Proof.Laws.FieldsReadBack

/-- The fields read from the instruction's word are the instruction's (30 R81, R82). -/
def Statement (i : Instr) : Prop := fieldsOf (encode i) = i.fields

theorem clre : Statement .clre := fieldsOf_wordOf _
theorem bld (bd : RegIdx) (len : BitVec 5) : Statement (.bld bd len) := fieldsOf_wordOf _
theorem bclr (bd : RegIdx) : Statement (.bclr bd) := fieldsOf_wordOf _
theorem brd (ba : RegIdx) : Statement (.brd ba) := fieldsOf_wordOf _
theorem mrd (ma : RegIdx) : Statement (.mrd ma) := fieldsOf_wordOf _
theorem mclr (md : RegIdx) : Statement (.mclr md) := fieldsOf_wordOf _
theorem band (bd ba bb : RegIdx) : Statement (.band bd ba bb) := fieldsOf_wordOf _
theorem bor (bd ba bb : RegIdx) : Statement (.bor bd ba bb) := fieldsOf_wordOf _
theorem bxor (bd ba bb : RegIdx) : Statement (.bxor bd ba bb) := fieldsOf_wordOf _
theorem bnot (bd ba : RegIdx) : Statement (.bnot bd ba) := fieldsOf_wordOf _
theorem cntl (ba : RegIdx) (v : Bool) : Statement (.cntl ba v) := fieldsOf_wordOf _
theorem cntt (ba : RegIdx) (v : Bool) : Statement (.cntt ba v) := fieldsOf_wordOf _
theorem bvalid (ba : RegIdx) : Statement (.bvalid ba) := fieldsOf_wordOf _
theorem mfc (md : RegIdx) : Statement (.mfc md) := fieldsOf_wordOf _
theorem mfb (md ba : RegIdx) : Statement (.mfb md ba) := fieldsOf_wordOf _
theorem memp (md : RegIdx) : Statement (.memp md) := fieldsOf_wordOf _
theorem mcidr (ma : RegIdx) : Statement (.mcidr ma) := fieldsOf_wordOf _
theorem mtb (bd ma : RegIdx) : Statement (.mtb bd ma) := fieldsOf_wordOf _
theorem mand (md ma mb : RegIdx) : Statement (.mand md ma mb) := fieldsOf_wordOf _
theorem mor (md ma mb : RegIdx) : Statement (.mor md ma mb) := fieldsOf_wordOf _
theorem mext (md ma : RegIdx) : Statement (.mext md ma) := fieldsOf_wordOf _
theorem mabr (md ma : RegIdx) : Statement (.mabr md ma) := fieldsOf_wordOf _
theorem meq (ma mb : RegIdx) : Statement (.meq ma mb) := fieldsOf_wordOf _
theorem npfx (bd ma bb : RegIdx) : Statement (.npfx bd ma bb) := fieldsOf_wordOf _
theorem hostid (bd ma bb : RegIdx) : Statement (.hostid bd ma bb) := fieldsOf_wordOf _
theorem scnt (ma bb : RegIdx) (opts : SibOpts) : Statement (.scnt ma bb opts) := fieldsOf_wordOf _
theorem sstart (ma bb : RegIdx) (opts : SibOpts) : Statement (.sstart ma bb opts) := fieldsOf_wordOf _
theorem snext (bd : RegIdx) : Statement (.snext bd) := fieldsOf_wordOf _

end Sys2Proof.Laws.FieldsReadBack
end

