-- ==== Sys2Proof/Laws/Subnet.lean ====
section
/-! SUPPORT. The subnet of an address under a prefix mask, as numbers (42 R161), the excluded set, and where the loop of `SNEXT`
stops (42 R167). -/

namespace Sys2Proof.Machine

/-! ### Network identifier and broadcast address -/

theorem cidrmask_and_eq_shift (n : Nat) (hn : n ≤ 32) (a : Addr) :
    cidrmask n &&& a = (a >>> (32 - n)) <<< (32 - n) := by
  apply BitVec.eq_of_getLsbD_eq
  intro i hi
  rw [BitVec.getLsbD_and, cidrmask_getLsbD n i hn hi, BitVec.getLsbD_shiftLeft, BitVec.getLsbD_ushiftRight]
  by_cases h : 32 - n ≤ i
  · simp [h, hi, show 32 - n + (i - (32 - n)) = i by omega]
  · simp [h, hi, show i < 32 - n by omega]

theorem netOf_toNat (n : Nat) (hn : n ≤ 32) (a : Addr) :
    (netOf (cidrmask n) a).toNat = a.toNat / 2 ^ (32 - n) * 2 ^ (32 - n) := by
  have h1 : a.toNat / 2 ^ (32 - n) * 2 ^ (32 - n) ≤ a.toNat := Nat.div_mul_le_self _ _
  have h2 := a.isLt
  rw [netOf, cidrmask_and_eq_shift n hn, BitVec.toNat_shiftLeft, BitVec.toNat_ushiftRight, Nat.shiftLeft_eq,
    Nat.shiftRight_eq_div_pow, Nat.mod_eq_of_lt (by omega)]

theorem not_cidrmask_toNat (n : Nat) : (~~~cidrmask n).toNat = 2 ^ (32 - n) - 1 := by
  have h1 : 2 ^ (32 - n) ≤ 2 ^ 32 := Nat.pow_le_pow_right (by omega) (by omega)
  have h2 := Nat.two_pow_pos (32 - n)
  rw [BitVec.toNat_not, cidrmask_toNat n]; omega

theorem bcastOf_toNat (n : Nat) (hn : n ≤ 32) (a : Addr) :
    (bcastOf (cidrmask n) a).toNat = (netOf (cidrmask n) a).toNat + (2 ^ (32 - n) - 1) := by
  have hd : netOf (cidrmask n) a &&& ~~~cidrmask n = 0#32 := by
    apply BitVec.eq_of_getLsbD_eq
    intro i hi
    simp only [netOf, BitVec.getLsbD_and, BitVec.getLsbD_not, BitVec.getLsbD_zero]
    cases (cidrmask n).getLsbD i <;> simp
  have hn' := not_cidrmask_toNat n
  have hp := Nat.two_pow_pos (32 - n)
  have hnet := netOf_toNat n hn a
  have hlt : (netOf (cidrmask n) a).toNat + (2 ^ (32 - n) - 1) < 2 ^ 32 := by
    have ha := a.isLt
    have hle : 2 ^ (32 - n) * 2 ^ n = 2 ^ 32 := by rw [← Nat.pow_add]; congr 1; omega
    have hq : a.toNat / 2 ^ (32 - n) < 2 ^ n := by
      rw [Nat.div_lt_iff_lt_mul hp, Nat.mul_comm, hle]; exact ha
    have hm : (a.toNat / 2 ^ (32 - n) + 1) * 2 ^ (32 - n) ≤ 2 ^ n * 2 ^ (32 - n) := Nat.mul_le_mul_right _ hq
    rw [Nat.mul_comm (2 ^ n), hle, Nat.add_mul, Nat.one_mul] at hm
    rw [hnet]; omega
  rw [bcastOf, ← BitVec.add_eq_or_of_and_eq_zero _ _ hd, BitVec.toNat_add, hn', Nat.mod_eq_of_lt hlt]

theorem netOf_le (n : Nat) (hn : n ≤ 32) (a : Addr) : (netOf (cidrmask n) a).toNat ≤ a.toNat := by
  rw [netOf_toNat n hn]; exact Nat.div_mul_le_self _ _

theorem le_bcastOf (n : Nat) (hn : n ≤ 32) (a : Addr) : a.toNat ≤ (bcastOf (cidrmask n) a).toNat := by
  rw [bcastOf_toNat n hn, netOf_toNat n hn]
  have := Nat.div_add_mod' a.toNat (2 ^ (32 - n))
  have := Nat.mod_lt a.toNat (Nat.two_pow_pos (32 - n))
  omega

/-- What a successful `SSTART` with a valid mask writes meets the iterator's invariant (10 R41). -/
theorem Iter.start_inv {m : Mask} (hm : IsPrefixMask m) (a : Addr) (o : SibOpts) : (Iter.start m a o).Inv := by
  obtain ⟨n, hn, rfl⟩ := hm
  have hc : ((netOf (cidrmask n) a).setWidth 33).toNat = (netOf (cidrmask n) a).toNat := by
    have := (netOf (cidrmask n) a).isLt
    rw [BitVec.toNat_setWidth, Nat.mod_eq_of_lt (by omega)]
  have hb := bcastOf_toNat n hn a
  refine ⟨⟨32 - n, by omega, ?_, hb⟩, netOf_le n hn a, le_bcastOf n hn a, ?_, ?_⟩ <;> simp only [Iter.start, hc]
  · rw [netOf_toNat n hn]; exact Nat.mul_mod_left _ _
  · exact Nat.le_refl _
  · omega

/-! ### The excluded set -/

theorem excluded_iff (net bcast self : Addr) (o : SibOpts) (x : Addr) :
    excluded (net == bcast) net bcast self o x = true ↔ SiblingExcluded net bcast self o x := by
  by_cases h : net = bcast
  · subst h; simp [excluded, SiblingExcluded]
  · simp [excluded, SiblingExcluded, h, or_assoc]

theorem siblingExcluded_iff (net bcast self : Addr) (o : SibOpts) (x : Addr) :
    siblingExcluded net bcast self o x = true ↔ SiblingExcluded net bcast self o x := by
  by_cases h : net = bcast <;> simp [siblingExcluded, SiblingExcluded, h]

theorem Iter.excludes_iff (t : Iter) (c : Cursor) :
    t.excludes c = true ↔ SiblingExcluded t.net t.bcast t.self t.opts (c.setWidth 32) :=
  excluded_iff ..

theorem Iter.within_iff (t : Iter) (c : Cursor) : t.within c = true ↔ c.toNat ≤ t.bcast.toNat := by
  have h := t.bcast.isLt
  rw [Iter.within, decide_eq_true_iff, BitVec.le_def, BitVec.toNat_setWidth, Nat.mod_eq_of_lt (by omega)]

/-! ### The loop of SNEXT -/

theorem Cursor.setWidth_eq (c : Cursor) : c.setWidth 32 = BitVec.ofNat 32 c.toNat := by
  apply BitVec.eq_of_toNat_eq; simp

/-- Where the loop stops: it passes over excluded addresses of the subnet only, at most as many as its bound, and if fewer it
has reached an address that is not excluded or the end. -/
theorem Iter.skip_spec (t : Iter) (n : Nat) (c : Cursor) :
    c.toNat ≤ (t.skip n c).toNat ∧ (t.skip n c).toNat ≤ c.toNat + n ∧
    (∀ x, c.toNat ≤ x → x < (t.skip n c).toNat → x ≤ t.bcast.toNat ∧
      SiblingExcluded t.net t.bcast t.self t.opts (BitVec.ofNat 32 x)) ∧
    ((t.skip n c).toNat < c.toNat + n → (t.skip n c).toNat ≤ t.bcast.toNat →
      ¬ SiblingExcluded t.net t.bcast t.self t.opts (BitVec.ofNat 32 (t.skip n c).toNat)) := by
  induction n generalizing c with
  | zero => exact ⟨Nat.le_refl _, Nat.le_refl _, fun x h1 h2 => absurd h2 (by simp [Iter.skip]; omega),
      fun h => absurd h (by simp [Iter.skip])⟩
  | succ n ih =>
    by_cases h : (t.within c && t.excludes c) = true
    · have e : t.skip (n + 1) c = t.skip n (c + 1) := by simp only [Iter.skip, h, if_pos]
      rw [Bool.and_eq_true, Iter.within_iff, Iter.excludes_iff, Cursor.setWidth_eq] at h
      have hb := t.bcast.isLt
      have hc : (c + 1).toNat = c.toNat + 1 := by
        rw [BitVec.toNat_add, show (1 : Cursor).toNat = 1 from rfl, Nat.mod_eq_of_lt (by omega)]
      obtain ⟨h1, h2, h3, h4⟩ := ih (c + 1)
      rw [e]; rw [hc] at h1 h2 h3 h4
      refine ⟨by omega, by omega, fun x hx hx' => ?_, fun hx => h4 (by omega)⟩
      by_cases hxc : x = c.toNat
      · subst hxc; exact h
      · exact h3 x (by omega) hx'
    · have e : t.skip (n + 1) c = c := by simp only [Iter.skip, h]; rfl
      rw [e]
      rw [Bool.and_eq_true, Iter.within_iff, Iter.excludes_iff, Cursor.setWidth_eq] at h
      exact ⟨Nat.le_refl _, by omega, fun x h1 h2 => absurd h2 (by omega), fun _ hw he => h ⟨hw, he⟩⟩

/-- An excluded address of the subnet is one of three, and in a single-host subnet the one address. -/
theorem SiblingExcluded.mem {net bcast self : Addr} {o : SibOpts} {x : Addr}
    (h : SiblingExcluded net bcast self o x) : net = bcast ∨ x = self ∨ x = net ∨ x = bcast := by
  by_cases hs : net = bcast
  · exact .inl hs
  · simp only [SiblingExcluded, hs, if_false] at h
    rcases h with h | h | h <;> simp [h.1]

/-- Under the iterator's invariant the bound 3 is never what stops the loop (42 R167): it stops at the first address from `cur`
on that is not excluded, or beyond `bcast`. -/
theorem Iter.candidate_spec {t : Iter} (ht : t.Inv) :
    t.cur.toNat ≤ t.candidate.toNat ∧ t.candidate.toNat ≤ t.cur.toNat + 3 ∧
    (∀ x, t.cur.toNat ≤ x → x < t.candidate.toNat → x ≤ t.bcast.toNat ∧
      SiblingExcluded t.net t.bcast t.self t.opts (BitVec.ofNat 32 x)) ∧
    (t.candidate.toNat ≤ t.bcast.toNat →
      ¬ SiblingExcluded t.net t.bcast t.self t.opts (BitVec.ofNat 32 t.candidate.toNat)) := by
  obtain ⟨h1, h2, h3, h4⟩ := t.skip_spec 3 t.cur
  refine ⟨h1, h2, h3, fun hw he => ?_⟩
  by_cases hlt : (t.skip 3 t.cur).toNat < t.cur.toNat + 3
  · exact h4 hlt hw he
  · have hb := t.bcast.isLt
    have key : ∀ x, t.cur.toNat ≤ x → x ≤ t.bcast.toNat →
        SiblingExcluded t.net t.bcast t.self t.opts (BitVec.ofNat 32 x) →
        t.net = t.bcast ∨ x = t.self.toNat ∨ x = t.net.toNat ∨ x = t.bcast.toNat := by
      intro x _ hx hex
      have hm : (BitVec.ofNat 32 x).toNat = x := by rw [BitVec.toNat_ofNat, Nat.mod_eq_of_lt (by omega)]
      rcases hex.mem with h | h | h | h
      · exact .inl h
      all_goals rw [h] at hm; omega
    unfold Iter.candidate at hw he
    have hge := ht.cur_ge
    have a0 := h3 t.cur.toNat (by omega) (by omega)
    have a1 := h3 (t.cur.toNat + 1) (by omega) (by omega)
    have a2 := h3 (t.cur.toNat + 2) (by omega) (by omega)
    have k0 := key _ (by omega) a0.1 a0.2
    have k1 := key _ (by omega) a1.1 a1.2
    have k2 := key _ (by omega) a2.1 a2.2
    have k3 := key _ (by omega) hw he
    by_cases hs : t.net = t.bcast
    · rw [hs] at hge; omega
    · simp only [hs, false_or] at k0 k1 k2 k3; omega

end Sys2Proof.Machine
end

