-- ==== Sys2Proof/Machine/Listing.lean ====
section
/-! DEFINITION. The notation around the block: the pseudo-instructions (30 R103), the assembler's text of a command (30 R100 to
R102), and the listing notation of values (30 R104). No command produces a text; texts are lists of characters here. Where 30 allows two
spellings the model writes one (log entry 9). -/

namespace Sys2Proof.Machine

/-! ### Pseudo-instructions, each exactly one command (30 R103) -/

/-- `MFA Md, Bs`: the source's `from_address`. -/
def pseudoMfa (md bs : RegIdx) : Instr := .mfb md bs

/-- `MANDA Bd, Mm, Ba`: the source's `mask & address`. -/
def pseudoManda (bd mm ba : RegIdx) : Instr := .npfx bd mm ba

/-- `CLO Bs`: count leading ones. -/
def pseudoClo (bs : RegIdx) : Instr := .cntl bs true

/-- `CLZ Bs`: count leading zeros. -/
def pseudoClz (bs : RegIdx) : Instr := .cntl bs false

/-- `CTO Bs`: count trailing ones. -/
def pseudoCto (bs : RegIdx) : Instr := .cntt bs true

/-- `CTZ Bs`: count trailing zeros. -/
def pseudoCtz (bs : RegIdx) : Instr := .cntt bs false

/-! ### Listing notation of values (30 R104) -/

/-- A number in decimal digits. -/
def decimalText (n : Nat) : List Char := Nat.toDigits 10 n

/-- A byte as exactly 8 binary digits, most significant first. -/
def byteText (x : Byte) : List Char := (byteBits x).map fun v => if v then '1' else '0'

/-- Texts joined by a separator. -/
def joinText (sep : List Char) (l : List (List Char)) : List Char := (l.intersperse sep).flatten

/-- `to_binary_string(bits[, separator])`: with no separator the digits run together. -/
def binaryText (sep : List Char) (b : List Byte) : List Char := joinText sep (b.map byteText)

/-- A mask as `A.B.C.D (aaaaaaaa.bbbbbbbb.cccccccc.dddddddd)`. -/
def maskText (m : Mask) : List Char :=
  joinText ['.'] ((bytes4 m).map fun x => decimalText x.toNat) ++ [' ', '('] ++ binaryText ['.'] (bytes4 m) ++ [')']

/-! ### Assembler text of a command and its operand data (30 R100 to R102) -/

/-- A buffer register, `B0`..`B7`. -/
def bText (i : RegIdx) : List Char := 'B' :: decimalText i.val

/-- A mask register, `M0`..`M7`. -/
def mText (i : RegIdx) : List Char := 'M' :: decimalText i.val

/-- The option flags as a sum of names, or `NONE`. -/
def optsText (o : SibOpts) : List Char :=
  let names := (if o.includeSelf then [['S', 'E', 'L', 'F']] else []) ++
    (if o.includeBroadcast then [['B', 'C', 'A', 'S', 'T']] else []) ++
    (if o.includeNetId then [['N', 'E', 'T', 'I', 'D']] else [])
  if names.isEmpty then ['N', 'O', 'N', 'E'] else joinText ['+'] names

/-- The counted bit, `0` or `1`. -/
def vText (v : Bool) : List Char := [if v then '1' else '0']

/-- A hexadecimal digit. -/
def hexDigit (n : Nat) : Char := if n < 10 then Char.ofNat (48 + n) else Char.ofNat (55 + n)

/-- A byte as two hexadecimal digits. -/
def hexText (x : Byte) : List Char := [hexDigit (x.toNat / 16), hexDigit (x.toNat % 16)]

/-- The bytes of a `BLD`, between braces. -/
def bytesText (b : List Byte) : List Char := [Char.ofNat 0x7B] ++ joinText [' '] (b.map hexText) ++ [Char.ofNat 0x7D]

/-- The scalar operand `#n` of `MFC`, `MEXT`, `MABR`. -/
def scalarText (n : Int) : List Char := '#' :: (if n < 0 then ['-'] else []) ++ decimalText n.natAbs

/-- The operands of a command in the order of 30 R100: destination, first source, second source, field, operand data. -/
def operandTexts (i : Instr) (din : DinWord) : List (List Char) :=
  let n := scalarText (din.extractLsb' 0 32).toInt
  match i with
  | .clre => []
  | .bld bd len => [bText bd, decimalText len.toNat, bytesText ((List.range len.toNat).map (dinByte din))]
  | .bclr bd => [bText bd]
  | .brd ba => [bText ba]
  | .mrd ma => [mText ma]
  | .mclr md => [mText md]
  | .band bd ba bb => [bText bd, bText ba, bText bb]
  | .bor bd ba bb => [bText bd, bText ba, bText bb]
  | .bxor bd ba bb => [bText bd, bText ba, bText bb]
  | .bnot bd ba => [bText bd, bText ba]
  | .cntl ba v => [bText ba, vText v]
  | .cntt ba v => [bText ba, vText v]
  | .bvalid ba => [bText ba]
  | .mfc md => [mText md, n]
  | .mfb md ba => [mText md, bText ba]
  | .memp md => [mText md]
  | .mcidr ma => [mText ma]
  | .mtb bd ma => [bText bd, mText ma]
  | .mand md ma mb => [mText md, mText ma, mText mb]
  | .mor md ma mb => [mText md, mText ma, mText mb]
  | .mext md ma => [mText md, mText ma, n]
  | .mabr md ma => [mText md, mText ma, n]
  | .meq ma mb => [mText ma, mText mb]
  | .npfx bd ma bb => [bText bd, mText ma, bText bb]
  | .hostid bd ma bb => [bText bd, mText ma, bText bb]
  | .scnt ma bb opts => [mText ma, bText bb, optsText opts]
  | .sstart ma bb opts => [mText ma, bText bb, optsText opts]
  | .snext bd => [bText bd]

/-- The mnemonic of a command (30 R88). -/
def mnemonic : Instr → String
  | .clre => "CLRE" | .bld .. => "BLD" | .bclr .. => "BCLR" | .brd .. => "BRD" | .mrd .. => "MRD" | .mclr .. => "MCLR"
  | .band .. => "BAND" | .bor .. => "BOR" | .bxor .. => "BXOR" | .bnot .. => "BNOT"
  | .cntl .. => "CNTL" | .cntt .. => "CNTT" | .bvalid .. => "BVALID"
  | .mfc .. => "MFC" | .mfb .. => "MFB" | .memp .. => "MEMP" | .mcidr .. => "MCIDR" | .mtb .. => "MTB"
  | .mand .. => "MAND" | .mor .. => "MOR" | .mext .. => "MEXT" | .mabr .. => "MABR" | .meq .. => "MEQ"
  | .npfx .. => "NPFX" | .hostid .. => "HOSTID" | .scnt .. => "SCNT" | .sstart .. => "SSTART" | .snext .. => "SNEXT"

/-- The line of a command: its mnemonic and its operands, comma separated (30 R100). -/
def commandText (i : Instr) (din : DinWord) : String :=
  match operandTexts i din with
  | [] => mnemonic i
  | ops => mnemonic i ++ " " ++ String.ofList (joinText [',', ' '] ops)

end Sys2Proof.Machine
end

