-- ==== Sys2Proof/Tests/Slice0.lean ====
section
/-! SUPPORT. Tests on small states, one step each, and one witness per statement that has hypotheses. Expected values are the
spec's own examples (30 to 43, 95_test_vectors.md) or its tables worked by hand; each theorem names its source. -/

namespace Sys2Proof.Tests

open Sys2Proof Sys2Proof.Machine

/-! ### Helpers -/

/-- The next state of an outcome. -/
def nextOf : Outcome → Option State
  | .next t => some t
  | _ => none

theorem eq_next_of_nextOf {o : Outcome} {t : State} (h : nextOf o = some t) : o = .next t := by
  cases o with
  | next u => exact congrArg _ (Option.some.inj h)
  | fault f => cases h
  | refused r => cases h

/-- What a command leaves, looked at through a function of the state. -/
def got {α : Type} (i : Instr) (s : State) (f : State → α) : Option α := (nextOf (exec i s)).map f

/-- The state after one step, or the same state where there is none. -/
def stepped (s : State) : State := (nextOf (step s)).getD s

/-- An iterator over 192.168.178.0/29, all three flags set, at its start (42 R166). -/
def demoIter : Iter := ⟨0xC0A8B200#32, 0xC0A8B207#32, 0xC0A8B205#32, ⟨true, true, true⟩, 0x0C0A8B200#33⟩

/-- A small state: B3 absent, B6 empty, B5 a 16-byte value, M5 to M7 absent, ST = 0x39 (43 R195). -/
def demo : State where
  b := #v[some [0x0A, 0x14, 0x1E, 0x28], some [0xFF, 0xFF, 0xFF, 0x00], some [0xFF, 0xFF, 0xFF, 0xF9], none,
    some [0x0A], some (List.replicate 16 0xFF), some [], some [0xFF, 0xFF, 0xFF, 0xF8]]
  m := #v[some 0xFFFFFF00, some 0xFFFFFFF0, some 0x00000000, some 0xFFFFFFFF, some 0xFFFF0000, none, none, none]
  sr := 7
  dout := ⟨1, (Vector.replicate 16 0).set 0 0xAB⟩
  st := 0x39
  it := some demoIter
  din := 0
  inputs := []

/-- `demo` with the scalar operand `n` on `DIN[31:0]` (20 R65). -/
def withScalar (n : BitVec 32) : State := { demo with din := n.setWidth 128 }

/-! ### Well-formedness -/

/-- The one check of WellFormed refuses a `BLD` of 17 bytes and lets one of 16 pass (30 R92). -/
theorem test_wellFormed : (Instr.bld 0 17).wellFormed = false ∧ (Instr.bld 0 31).wellFormed = false ∧
    (Instr.bld 0 16).wellFormed = true ∧ (Instr.bld 0 0).wellFormed = true := by decide

/-! ### Decoding: a word for every command -/

/-- Words of 43 R190 to R195, and `BLD B0, 4` bit by bit: op, rd, ra, rb, len, opts, v, zero (30 R81). -/
theorem test_decode_transfer :
    decode (0b000010#6 ++ 0b000#3 ++ 0b000#3 ++ 0b000#3 ++ 0b00100#5 ++ 0b000#3 ++ 0b0#1 ++ 0b00000000#8) = .ok (.bld 0 4) ∧
    decode 0x04000000#32 = .ok .clre ∧ decode 0x08004000#32 = .ok (.bld 0 4) ∧ decode 0x0D800000#32 = .ok (.bclr 3) ∧
    decode 0x10200000#32 = .ok (.brd 2) ∧ decode 0x14100000#32 = .ok (.mrd 1) ∧ decode 0x1B000000#32 = .ok (.mclr 6) := by
  decide

/-- Words of 40 R111 to R120, and `BAND B2, B0, B1` bit by bit. -/
theorem test_decode_bitwise :
    decode (0b001000#6 ++ 0b010#3 ++ 0b000#3 ++ 0b001#3 ++ 0b00000#5 ++ 0b000#3 ++ 0b0#1 ++ 0b00000000#8) =
      .ok (.band 2 0 1) ∧
    decode 0x21020000#32 = .ok (.band 2 0 1) ∧ decode 0x25020000#32 = .ok (.bor 2 0 1) ∧
    decode 0x29020000#32 = .ok (.bxor 2 0 1) ∧ decode 0x2C800000#32 = .ok (.bnot 1 0) ∧
    decode 0x30000100#32 = .ok (.cntl 0 true) ∧ decode 0x34100000#32 = .ok (.cntt 1 false) ∧
    decode 0x38100000#32 = .ok (.bvalid 1) := by decide

/-- Words of 41 R132 to R141, and `MOR M2, M5, M1` bit by bit. -/
theorem test_decode_netmask :
    decode (0b010110#6 ++ 0b010#3 ++ 0b101#3 ++ 0b001#3 ++ 0b00000#5 ++ 0b000#3 ++ 0b0#1 ++ 0b00000000#8) =
      .ok (.mor 2 5 1) ∧
    decode 0x40800000#32 = .ok (.mfc 1) ∧ decode 0x44100000#32 = .ok (.mfb 0 1) ∧ decode 0x49800000#32 = .ok (.memp 3) ∧
    decode 0x4C100000#32 = .ok (.mcidr 1) ∧ decode 0x52000000#32 = .ok (.mtb 4 0) ∧
    decode 0x55020000#32 = .ok (.mand 2 0 1) ∧ decode 0x59520000#32 = .ok (.mor 2 5 1) ∧
    decode 0x5D000000#32 = .ok (.mext 2 0) ∧ decode 0x61000000#32 = .ok (.mabr 2 0) ∧
    decode 0x64020000#32 = .ok (.meq 0 1) := by decide

/-- Words of 42 R162 to R167, and `SCNT M1, B0, BCAST+NETID` bit by bit: opts is IncludeSelf 0, IncludeBroadcast 1,
IncludeNetworkIdentifier 1 (30 R85). -/
theorem test_decode_topology :
    decode (0b100010#6 ++ 0b000#3 ++ 0b001#3 ++ 0b000#3 ++ 0b00000#5 ++ 0b110#3 ++ 0b0#1 ++ 0b00000000#8) =
      .ok (.scnt 1 0 ⟨false, true, true⟩) ∧
    decode 0x81000000#32 = .ok (.npfx 2 0 0) ∧ decode 0x85800000#32 = .ok (.hostid 3 0 0) ∧
    decode 0x88100C00#32 = .ok (.scnt 1 0 ⟨false, true, true⟩) ∧
    decode 0x8C000E00#32 = .ok (.sstart 0 0 ⟨true, true, true⟩) ∧ decode 0x92800000#32 = .ok (.snext 5) := by decide

/-- The encoder gives the words of the same examples. -/
theorem test_encode : encode (.bld 0 4) = 0x08004000#32 ∧ encode (.bnot 1 0) = 0x2C800000#32 ∧
    encode (.mor 2 5 1) = 0x59520000#32 ∧ encode (.scnt 1 0 ⟨false, true, true⟩) = 0x88100C00#32 := by decide

/-- Illegal words: 30 R93 (all zero, all ones), R91 (`BNOT` with rb, `CLRE` with another bit, `SNEXT` with opts), R92. -/
theorem test_decode_illegal : decode 0x00000000#32 = .error .reservedOpcode ∧ decode 0xFFFFFFFF#32 = .error .reservedOpcode ∧
    decode 0x2C820000#32 = .error .strayBits ∧ decode 0x04000001#32 = .error .strayBits ∧
    decode 0x90000200#32 = .error .strayBits ∧ decode 0x08011000#32 = .error .bldLength := by decide

/-- The table's numbering is the command word's own (30 R81). -/
theorem test_decodeTableWord : decodeTableWord 32 0x49800000 = some (.memp 3) ∧ decodeTableWord 32 0 = none := by decide

/-! ### The step -/

/-- A word placed by the host runs as the first command after reset: `MEMP M3` (41 R134). -/
theorem test_withFetchWord :
    (nextOf (step (State.reset.withFetchWord 32 0x49800000))).map (fun t => (t.readM 3, t.st, t.inputs)) =
      some (some 0x00000000, 0x00, []) := by decide

/-- A reserved opcode: code 3 and EIL added to ST = 0x39, nothing else (30 R90). -/
theorem test_step_illegal :
    nextOf (step { demo with inputs := [.command 0x00000000 5] }) = some { demo with din := 5, st := 0x7B } := by decide

/-- Reset between two commands (10 R43). -/
theorem test_step_reset : nextOf (step { demo with inputs := [.reset, .command 1 2] }) =
    some { State.reset with inputs := [.command 1 2] } := by decide

/-- The operand data is sampled with its command: `MFC M1, #29` (41 R132). -/
theorem test_step_samples : (stepped { State.reset with inputs := [.command 0x40800000 29] }).readM 1 = some 0xFFFFFFF8 := by
  decide

/-! ### Transfer and control -/

/-- `ST` = 0x39 becomes 0x08 (43 R195). -/
theorem test_clre : got .clre demo id = some { demo with st := 0x08 } := by decide

/-- The example of 43 R190, and the empty buffer of its corner cases. -/
theorem test_bld : got (.bld 3 4) { demo with din := 0x0A141E28000000000000000000000000 } (fun t => (t.readB 3, t.st)) =
      some (some [0x0A, 0x14, 0x1E, 0x28], 0x38) ∧
    got (.bld 0 0) demo (·.readB 0) = some (some []) := by decide

/-- 43 R191: absent afterwards, `DOUT` kept. -/
theorem test_bclr : got (.bclr 0) demo (fun t => (t.readB 0, t.dout.len)) = some (none, 1) := by decide

/-- The example of 43 R192, seen on the response port (20 R67); an absent source leaves `DOUT`. -/
theorem test_brd : got (.brd 0) demo (fun t => (t.response.doutLen, t.response.doutData)) =
      some (4, 0x0A141E28000000000000000000000000) ∧
    got (.brd 3) demo (fun t => (t.st, t.dout.len)) = some (0x39, 1) := by decide

/-- The example of 43 R193 on M0 = /24. -/
theorem test_mrd : got (.mrd 0) demo (fun t => (t.response.doutLen, t.response.doutData)) =
    some (4, 0xFFFFFF00000000000000000000000000) := by decide

/-- 43 R194. -/
theorem test_mclr : got (.mclr 0) demo (·.readM 0) = some none := by decide

/-! ### The bitwise buffer engine -/

/-- The example of 40 R111 with the sources swapped, and padding at the end: 0A against 0A 14 1E 28. -/
theorem test_band : got (.band 3 1 0) demo (fun t => (t.readB 3, t.st)) = some (some [0x0A, 0x14, 0x1E, 0x00], 0x38) ∧
    got (.band 4 4 0) demo (·.readB 4) = some (some [0x0A, 0x00, 0x00, 0x00]) := by decide

/-- 40 R112: the tail is the longer buffer's own. -/
theorem test_bor : got (.bor 0 4 1) demo (·.readB 0) = some (some [0xFF, 0xFF, 0xFF, 0x00]) ∧
    got (.bor 4 4 0) demo (·.readB 4) = some (some [0x0A, 0x14, 0x1E, 0x28]) := by decide

/-- The example of 40 R113. -/
theorem test_bxor : got (.bxor 2 7 1) demo (·.readB 2) = some (some [0x00, 0x00, 0x00, 0xF8]) := by decide

/-- The example of 40 R114, and an absent source. -/
theorem test_bnot : got (.bnot 3 1) demo (·.readB 3) = some (some [0x00, 0x00, 0x00, 0xFF]) ∧
    got (.bnot 0 3) demo (fun t => (t.readB 0, t.st)) = some (some [0x0A, 0x14, 0x1E, 0x28], 0x39) := by decide

/-- The examples of 40 R118, and the four leading zeros of 0A. -/
theorem test_cntl : got (.cntl 7 true) demo (·.sr) = some 29 ∧ got (.cntl 7 false) demo (·.sr) = some 0 ∧
    got (.cntl 4 false) demo (·.sr) = some 4 := by decide

/-- The examples of 40 R119, and the empty buffer. -/
theorem test_cntt : got (.cntt 7 false) demo (·.sr) = some 3 ∧ got (.cntt 2 false) demo (·.sr) = some 0 ∧
    got (.cntt 2 true) demo (·.sr) = some 1 ∧ got (.cntt 6 true) demo (·.sr) = some 0 := by decide

/-- The examples of 40 R120, and the empty buffer. -/
theorem test_bvalid : got (.bvalid 7) demo (·.sr) = some 1 ∧ got (.bvalid 2) demo (fun t => (t.sr, t.st)) = some (0, 0x38) ∧
    got (.bvalid 6) demo (·.sr) = some 1 := by decide

/-! ### The network-mask unit -/

/-- 41 R132: 29, 32, and the two values outside the range. -/
theorem test_mfc : got (.mfc 1) (withScalar 29) (·.readM 1) = some (some 0xFFFFFFF8) ∧
    got (.mfc 1) (withScalar 32) (·.readM 1) = some (some 0xFFFFFFFF) ∧
    got (.mfc 1) (withScalar 33) (fun t => (t.readM 1, t.st)) = some (some 0xFFFFFFF0, 0x39) ∧
    got (.mfc 1) (withScalar 0xFFFFFFFF) (fun t => (t.readM 1, t.st)) = some (some 0xFFFFFFF0, 0x39) := by decide

/-- The examples of 41 R133; a valid pattern of another length fails as `InvalidArgument`. -/
theorem test_mfb : got (.mfb 5 1) demo (·.readM 5) = some (some 0xFFFFFF00) ∧
    got (.mfb 0 2) demo (fun t => (t.readM 0, t.st)) = some (some 0xFFFFFF00, 0x39) ∧
    got (.mfb 0 5) { demo with st := 0 } (·.st) = some 0x11 := by decide

/-- The example of 41 R134. -/
theorem test_memp : got (.memp 3) demo (·.readM 3) = some (some 0x00000000) := by decide

/-- 41 R135: /28, /0 and /32. -/
theorem test_mcidr : got (.mcidr 1) demo (·.sr) = some 28 ∧ got (.mcidr 2) demo (·.sr) = some 0 ∧
    got (.mcidr 3) demo (·.sr) = some 32 := by decide

/-- The example of 41 R136. -/
theorem test_mtb : got (.mtb 4 0) demo (·.readB 4) = some (some [0xFF, 0xFF, 0xFF, 0x00]) := by decide

/-- The example of 41 R137, and an absent source. -/
theorem test_mand : got (.mand 2 0 4) demo (·.readM 2) = some (some 0xFFFF0000) ∧
    got (.mand 2 0 5) { demo with st := 0 } (·.st) = some 0x11 := by decide

/-- The examples of 41 R138, and two absent sources. -/
theorem test_mor : got (.mor 2 0 4) demo (·.readM 2) = some (some 0xFFFFFF00) ∧
    got (.mor 2 5 4) demo (·.readM 2) = some (some 0xFFFF0000) ∧
    got (.mor 2 5 6) demo (fun t => (t.readM 2, t.st)) = some (none, 0x38) := by decide

/-- The examples of 41 R139, and the ends of the operand's range. -/
theorem test_mext : got (.mext 2 0) (withScalar 5) (·.readM 2) = some (some 0xFFFFFFF8) ∧
    got (.mext 2 0) (withScalar 10) (·.readM 2) = some (some 0xFFFFFFFF) ∧
    got (.mext 2 0) (withScalar 0x7FFFFFFF) (·.readM 2) = some (some 0xFFFFFFFF) ∧
    got (.mext 2 0) (withScalar 0x80000000) (·.readM 2) = some (some 0x00000000) := by decide

/-- The examples of 41 R140, and `by = -2^31`. -/
theorem test_mabr : got (.mabr 2 0) (withScalar 8) (·.readM 2) = some (some 0xFFFF0000) ∧
    got (.mabr 2 0) (withScalar 40) (·.readM 2) = some (some 0x00000000) ∧
    got (.mabr 2 0) (withScalar 0x80000000) (·.readM 2) = some (some 0xFFFFFFFF) := by decide

/-- The examples of 41 R141. -/
theorem test_meq : got (.meq 0 4) demo (·.sr) = some 0 ∧ got (.meq 0 0) demo (·.sr) = some 1 := by decide

/-! ### The subnet-topology unit -/

/-- The example of 42 R162, and a 16-byte address. -/
theorem test_npfx : got (.npfx 2 0 0) demo (·.readB 2) = some (some [0x0A, 0x14, 0x1E, 0x00]) ∧
    got (.npfx 2 0 5) { demo with st := 0 } (·.st) = some 0x22 := by decide

/-- The example of 42 R163, and 60 R215's case: an absent mask beside a 16-byte address. -/
theorem test_hostid : got (.hostid 3 0 0) demo (·.readB 3) = some (some [0x00, 0x00, 0x00, 0x28]) ∧
    got (.hostid 3 5 5) { demo with st := 0 } (·.st) = some 0x11 := by decide

/-- The example of 42 R165 (15, 14, 13), and 2^32 at CIDR 0. -/
theorem test_scnt :
    let s := demo.writeB 0 (some [10, 20, 3, 193])
    got (.scnt 1 0 ⟨false, true, true⟩) s (·.sr) = some 15 ∧ got (.scnt 1 0 ⟨false, false, true⟩) s (·.sr) = some 14 ∧
    got (.scnt 1 0 ⟨false, false, false⟩) s (·.sr) = some 13 ∧
    got (.scnt 2 0 ⟨true, true, true⟩) s (·.sr) = some 0x100000000 := by decide

/-- The example of 42 R166. -/
theorem test_sstart :
    got (.sstart 5 3 ⟨true, true, true⟩) (((({ demo with it := none, st := 0 } : State).writeM 5 (some 0xFFFFFFF8)).writeB 3
      (some [192, 168, 178, 5]))) (fun t => (t.it, t.st)) = some (some demoIter, 0x08) := by decide

/-- The example of 42 R167: the first address, the eighth, and the end, which leaves the register. -/
theorem test_snext :
    got (.snext 5) demo (fun t => (t.readB 5, t.it.map (·.cur), t.st)) =
      some (some [192, 168, 178, 0], some 0x0C0A8B201, 0x38) ∧
    got (.snext 5) { demo with it := some { demoIter with cur := 0x0C0A8B207 } } (fun t => (t.readB 5, t.it.map (·.cur))) =
      some (some [192, 168, 178, 7], some 0x0C0A8B208) ∧
    got (.snext 1) { demo with it := some { demoIter with cur := 0x0C0A8B208 } } (fun t => (t.readB 1, t.st)) =
      some (some [0xFF, 0xFF, 0xFF, 0x00], 0x3C) := by decide

/-- 42 R167: with CIDR 31 and no flag set every address is excluded; beyond 255.255.255.255 the counter is 2^32. -/
theorem test_snext_ends :
    got (.snext 5) { demo with it := some ⟨0xFFFFFFFE, 0xFFFFFFFF, 0xFFFFFFFF, ⟨false, false, false⟩, 0x0FFFFFFFE⟩ }
      (fun t => (t.it.map (·.cur), stEos t.st)) = some (some 0x100000000, true) := by decide

/-! ### Notation -/

/-- The mask text of 30 R104 for /29. -/
theorem test_maskText : maskText (cidrmask 29) =
    ['2', '5', '5', '.', '2', '5', '5', '.', '2', '5', '5', '.', '2', '4', '8', ' ', '(',
     '1', '1', '1', '1', '1', '1', '1', '1', '.', '1', '1', '1', '1', '1', '1', '1', '1', '.',
     '1', '1', '1', '1', '1', '1', '1', '1', '.', '1', '1', '1', '1', '1', '0', '0', '0', ')'] := by decide

/-- The operands of `MEXT M2, M1, #-3` (30 R101) and of `SCNT M0, B0, BCAST+NETID` (R102). -/
theorem test_operandTexts : operandTexts (.mext 2 1) 0xFFFFFFFD = [['M', '2'], ['M', '1'], ['#', '-', '3']] ∧
    operandTexts (.scnt 0 0 ⟨false, true, true⟩) 0 =
      [['M', '0'], ['B', '0'], ['B', 'C', 'A', 'S', 'T', '+', 'N', 'E', 'T', 'I', 'D']] := by decide

/-- The pseudo-instructions are the words of their expansions (30 R103). -/
theorem test_pseudo : encode (pseudoMfa 0 1) = 0x44100000#32 ∧ encode (pseudoManda 2 0 0) = 0x81000000#32 ∧
    encode (pseudoClo 0) = 0x30000100#32 ∧ encode (pseudoClz 0) = 0x30000000#32 ∧ encode (pseudoCto 1) = 0x34100100#32 ∧
    encode (pseudoCtz 1) = 0x34100000#32 := by decide

/-! ### Witnesses

For each statement with hypotheses, a state and operands that meet them, at the boundaries of each clause. The statements without
hypotheses are SpecExampleWordsDecode, EveryStepCompletes, ResetMeetsTheStateInvariant, ClreClearsTheErrorRecord,
BclrMakesABufferAbsent, MclrMakesAMaskAbsent, MempMakesTheEmptyMask and ResponsePortShowsTheState. -/

theorem test_hypotheses_DecodeOfEncodeReturnsTheCommand :
    (Instr.bld 7 16).WellFormed ∧ (Instr.scnt 7 7 ⟨true, true, true⟩).WellFormed := by
  decide

theorem test_hypotheses_EncodeOfDecodeReturnsTheWord : decode 0x0B810000#32 = .ok (.bld 7 16) ∧
    decode 0x887E0E00#32 = .ok (.scnt 7 7 ⟨true, true, true⟩) := by decide

/-- Either side of each of the three ways to be illegal: opcode 0x25 and 0x24, `BLD` of 17 and 16 bytes, a stray bit and none. -/
theorem test_hypotheses_IllegalWordsRaiseIllegalCommand :
    ({ demo with inputs := [.command 0x94000000 0] } : State).inputs = .command 0x94000000 0 :: [] ∧
    IllegalWord 0x94000000#32 ∧ ¬ IllegalWord 0x90000000#32 ∧ IllegalWord 0x08011000#32 ∧ ¬ IllegalWord 0x08010000#32 ∧
    IllegalWord 0x34000080#32 ∧ ¬ IllegalWord 0x34000100#32 ∧ IllegalWord 0xFFFFFFFF#32 := by
  unfold IllegalWord; decide

theorem test_hypotheses_StepRunsTheDecodedCommand :
    ({ demo with inputs := [.command 0x49800000 3, .reset] } : State).inputs = .command 0x49800000 3 :: [.reset] ∧
    decode 0x49800000#32 = .ok (.memp 3) := by decide

theorem test_hypotheses_ResetLeavesTheSpecifiedState :
    ({ demo with inputs := [.reset, .reset] } : State).inputs = .reset :: [.reset] := by
  decide

theorem test_hypotheses_StepWithNothingPresentedWaits : demo.inputs = [] := by decide

theorem demoIter_inv : demoIter.Inv :=
  ⟨⟨3, by decide, by decide, by decide⟩, by decide, by decide, by decide, by decide⟩

theorem demo_inv : demo.Inv where
  masks i m h := by
    have key : ∀ i, (demo.readM i).all (fun m => m == cidrmask (cidr m)) = true := by decide
    have := key i
    rw [h] at this
    exact ⟨cidr m, (cidr_spec m).1, by simpa using this⟩
  buffers i a h := by
    have key : ∀ i, (demo.readB i).all (fun a => decide (a.length ≤ 16)) = true := by decide
    have := key i
    rw [h] at this
    simpa using this
  sr := by decide
  doutLen := by decide
  doutTail := by decide
  reserved := by decide
  act := by decide
  iter t h := by
    have : t = demoIter := (Option.some.inj h).symm
    exact this ▸ demoIter_inv

theorem test_hypotheses_EveryStepKeepsTheStateInvariant : ∃ t, demo.Inv ∧ step demo = .next t := ⟨demo, demo_inv, rfl⟩

/-- Three commands from reset: `MFC M0, #29`, `BLD B0, 4, {C0 A8 B2 05}` and `SSTART M0, B0, SELF+BCAST+NETID`. -/
def started : State := { State.reset with inputs :=
  [.command 0x40000000 29, .command 0x08004000 0xC0A8B205000000000000000000000000, .command 0x8C000E00 0] }

theorem reachable_stepped {s : State} (h : Reachable s) (hn : (nextOf (step s)).isSome = true) : Reachable (stepped s) := by
  obtain ⟨t, ht⟩ := Option.isSome_iff_exists.mp hn
  have : stepped s = t := by rw [stepped, ht]; rfl
  exact this ▸ .step h (eq_next_of_nextOf ht)

theorem test_hypotheses_ReachableMasksAreValid : ∃ s, Reachable s ∧ s.readM 0 = some 0xFFFFFFF8 :=
  ⟨stepped started, reachable_stepped (.reset _) (by decide), by decide⟩

theorem test_hypotheses_ReachableIteratorsAreInTheirSubnet : ∃ s, Reachable s ∧ s.it = some demoIter :=
  ⟨stepped (stepped (stepped started)),
    reachable_stepped (reachable_stepped (reachable_stepped (.reset _) (by decide)) (by decide)) (by decide), by decide⟩

theorem test_hypotheses_FailuresByCommandAndTheirEffect : errorOf (.brd 3) demo = some .invalidArgument ∧
    errorOf (.npfx 0 0 5) demo = some .unsupported ∧ errorOf (.npfx 0 5 5) demo = some .invalidArgument ∧
    Safe (.npfx 0 0 0) demo ∧ errorOf (.mfc 0) (withScalar 33) = some .invalidArgument ∧ Safe (.mfc 0) (withScalar 32) ∧
    errorOf (.mfb 0 2) demo = some .invalidArgument ∧ Safe (.mfb 0 7) demo ∧
    errorOf (.snext 0) { demo with it := none } = some .invalidArgument := by decide

theorem test_hypotheses_CodeAndStickyFlagsAreWrittenAsSpecified :
    (∃ t, exec (.memp 0) demo = .next t ∧ Safe (.memp 0) demo) ∧ (∃ t, exec .clre demo = .next t) ∧
    (∃ t, exec (.brd 3) demo = .next t ∧ errorOf (.brd 3) demo = some .invalidArgument) ∧
    (∃ t, exec (.npfx 0 0 5) demo = .next t ∧ errorOf (.npfx 0 0 5) demo = some .unsupported) ∧
    ∃ t, decode 0#32 = .error .reservedOpcode ∧ step { demo with inputs := [.command 0 0] } = .next t :=
  ⟨⟨_, rfl, by decide⟩, ⟨_, rfl⟩, ⟨_, rfl, by decide⟩, ⟨_, rfl, by decide⟩, ⟨_, by decide, rfl⟩⟩

/-- The iterator of `demo` at its last address and beyond it. -/
theorem demoIter_inv_ends :
    ({ demoIter with cur := 0x0C0A8B207 } : Iter).Inv ∧ ({ demoIter with cur := 0x0C0A8B208 } : Iter).Inv :=
  ⟨⟨⟨3, by decide, by decide, by decide⟩, by decide, by decide, by decide, by decide⟩,
   ⟨⟨3, by decide, by decide, by decide⟩, by decide, by decide, by decide, by decide⟩⟩

theorem test_hypotheses_EosAndActAreWrittenByTheIteratorCommands :
    (∃ t, exec (.sstart 0 0 ⟨true, true, true⟩) demo = .next t ∧ Safe (.sstart 0 0 ⟨true, true, true⟩) demo) ∧
    (∃ t, exec (.snext 0) demo = .next t ∧ demo.it = some demoIter ∧ demoIter.Inv) ∧
    (∃ t, exec (.brd 3) demo = .next t ∧ ¬ Safe (.brd 3) demo) ∧ (∃ t, exec (.memp 0) demo = .next t) ∧
    ∃ t, decode 0#32 = .error .reservedOpcode ∧ step { demo with inputs := [.command 0 0] } = .next t :=
  ⟨⟨_, rfl, by decide⟩, ⟨_, rfl, rfl, demoIter_inv⟩, ⟨_, rfl, by decide⟩, ⟨_, rfl⟩, ⟨_, by decide, rfl⟩⟩

theorem test_hypotheses_OnlyScalarCommandsWriteSR :
    ∃ t, exec (.mcidr 0) demo = .next t ∧ t.sr ≠ demo.sr := ⟨_, rfl, by decide⟩

theorem test_hypotheses_OnlyReadoutCommandsWriteDOUT :
    ∃ t, exec (.brd 0) demo = .next t ∧ t.dout ≠ demo.dout := ⟨_, rfl, by decide⟩

theorem test_hypotheses_OnlyTheDestinationBufferChanges : ∃ t, exec (.bclr 7) demo = .next t ∧ t.readB 7 ≠ demo.readB 7 :=
  ⟨_, rfl, by decide⟩

theorem test_hypotheses_OnlyTheDestinationMaskChanges : ∃ t, exec (.mclr 4) demo = .next t ∧ t.readM 4 ≠ demo.readM 4 :=
  ⟨_, rfl, by decide⟩

theorem test_hypotheses_OnlyIteratorCommandsWriteTheIterator :
    (∃ t, exec (.snext 0) demo = .next t) ∧ ∃ t, exec (.memp 0) demo = .next t :=
  ⟨⟨_, rfl⟩, ⟨_, rfl⟩⟩

theorem test_hypotheses_CommandsLeaveTheHostSideAlone : ∃ t, exec (.bld 0 4) demo = .next t := ⟨_, rfl⟩

/-- Operand data that differs just outside the bits used: below the 16th byte of `BLD` there is none, below the fourth
`DIN[95]`; for `MFC` `DIN[32]`; for `MEMP` all of it. -/
theorem test_hypotheses_UnusedOperandDataIsIgnored :
    (∀ j, j < 8 * (4#5).toNat → (0 : DinWord).getLsbD (127 - j) = (1#128 <<< 95).getLsbD (127 - j)) ∧
    (0 : DinWord).extractLsb' 0 32 = (1#128 <<< 32).extractLsb' 0 32 ∧ readsDIN (.memp 0) = false ∧
    (∃ t, exec (.bld 0 4) { demo with din := 0 } = .next t) ∧ (∃ t, exec (.mfc 0) { demo with din := 0 } = .next t) ∧
    ∃ t, exec (.memp 0) { demo with din := 0 } = .next t :=
  ⟨by decide, by decide, by decide, ⟨_, rfl⟩, ⟨_, rfl⟩, ⟨_, rfl⟩⟩

theorem test_hypotheses_BldLoadsTheBytesOfDin : 16 < (17#5).toNat ∧ 16 < (31#5).toNat ∧
    ({ demo with inputs := [.command 0x08011000 0] } : State).inputs =
      .command (commandWord 0x02 0 0 0 (17#5).toNat 0 0) 0 :: [] ∧ (16#5).toNat ≤ 16 ∧ (0#5).toNat ≤ 16 := by decide

/-- For the statements about one buffer source: absent, empty, and for `BRD` 16 bytes long. -/
theorem test_hypotheses_BrdCopiesABufferToTheLatch :
    demo.readB 3 = none ∧ demo.readB 6 = some [] ∧ ([] : List Byte).length ≤ 16 ∧
    demo.readB 5 = some (List.replicate 16 0xFF) ∧ (List.replicate 16 (0xFF : Byte)).length ≤ 16 := by decide

theorem test_hypotheses_BnotComplementsEachByte :
    demo.readB 3 = none ∧ demo.readB 6 = some [] ∧ demo.readB 4 = some [0x0A] := by decide

theorem test_hypotheses_CntlCountsTheLeadingRun :
    demo.readB 3 = none ∧ demo.readB 6 = some [] ∧ demo.readB 4 = some [0x0A] := by decide

theorem test_hypotheses_CnttCountsTheTrailingRun :
    demo.readB 3 = none ∧ demo.readB 6 = some [] ∧ demo.readB 4 = some [0x0A] := by decide

theorem test_hypotheses_BvalidTellsPrefixPatterns :
    demo.readB 3 = none ∧ demo.readB 6 = some [] ∧ demo.readB 4 = some [0x0A] := by decide

/-- For `BAND`, `BOR`, `BXOR`: the first source absent, the second absent, both present and of different lengths. -/
theorem test_hypotheses_BandCombinesPaddedBuffers : (demo.readB 3 = none ∨ demo.readB 0 = none) ∧
    (demo.readB 0 = none ∨ demo.readB 3 = none) ∧ demo.readB 4 = some [0x0A] ∧ demo.readB 6 = some [] := by decide

theorem test_hypotheses_BorCombinesPaddedBuffers : (demo.readB 3 = none ∨ demo.readB 0 = none) ∧
    (demo.readB 0 = none ∨ demo.readB 3 = none) ∧ demo.readB 4 = some [0x0A] ∧ demo.readB 6 = some [] := by decide

theorem test_hypotheses_BxorCombinesPaddedBuffers : (demo.readB 3 = none ∨ demo.readB 0 = none) ∧
    (demo.readB 0 = none ∨ demo.readB 3 = none) ∧ demo.readB 4 = some [0x0A] ∧ demo.readB 6 = some [] := by decide

theorem test_hypotheses_BitwiseFamilyLaws : demo.readB 4 = some [0x0A] ∧ demo.readB 6 = some [] ∧
    (List.replicate 16 (0xFF : Byte)).length ≤ 16 := by decide

theorem test_hypotheses_ValidFourByteBuffersArePrefixMasks :
    addrOf 0 0 0 0 = cidrmask 0 ∧ addrOf 0xFF 0xFF 0xFF 0xFF = cidrmask 32 := by
  decide

theorem test_hypotheses_CidrmaskAndCidrAreInverse :
    (0 ≤ 32 ∧ 32 ≤ 32) ∧ 0 < cidr 0x80000000#32 ∧ cidr 0xFFFFFFFE#32 < 32 := by decide

theorem test_hypotheses_MfcMakesTheMaskOfALength :
    ((withScalar 0xFFFFFFFF).din.extractLsb' 0 32).toInt = -1 ∧ ((withScalar 33).din.extractLsb' 0 32).toInt = 33 ∧
    ((withScalar 0).din.extractLsb' 0 32).toInt = 0 ∧ ((withScalar 32).din.extractLsb' 0 32).toInt = 32 := by decide

theorem onesThenZeros_FFFFFF00 : OnesThenZeros [0xFF, 0xFF, 0xFF, 0x00] := (validMask_iff _).mp (by decide)

theorem not_onesThenZeros_FFFFFFF9 : ¬ OnesThenZeros [0xFF, 0xFF, 0xFF, 0xF9] := (validMask_iff _).not.mp (by decide)

theorem test_hypotheses_MfbTakesValidFourByteBuffers : demo.readB 3 = none ∧
    (∃ a, demo.readB 4 = some a ∧ a.length ≠ 4) ∧ (∃ a, demo.readB 6 = some a ∧ a.length ≠ 4) ∧
    (∃ a, demo.readB 2 = some a ∧ ¬ OnesThenZeros a) ∧
    demo.readB 1 = some [0xFF, 0xFF, 0xFF, 0x00] ∧ OnesThenZeros [0xFF, 0xFF, 0xFF, 0x00] :=
  ⟨rfl, ⟨_, rfl, by decide⟩, ⟨_, rfl, by decide⟩, ⟨_, rfl, not_onesThenZeros_FFFFFFF9⟩, rfl, onesThenZeros_FFFFFF00⟩

/-- For the statements about one mask source: absent, and a present prefix mask of length 0, 28 and 32. -/
theorem prefix_masks :
    IsPrefixMask 0x00000000 ∧ IsPrefixMask 0xFFFFFFF0 ∧ IsPrefixMask 0xFFFFFFFF ∧ IsPrefixMask 0xFFFFFF00 :=
  ⟨⟨0, by decide, by decide⟩, ⟨28, by decide, by decide⟩, ⟨32, by decide, by decide⟩, ⟨24, by decide, by decide⟩⟩

theorem test_hypotheses_MrdCopiesAMaskToTheLatch : demo.readM 5 = none ∧ demo.readM 0 = some 0xFFFFFF00 := by decide

theorem test_hypotheses_McidrCountsTheLeadingOnes :
    demo.readM 5 = none ∧ demo.readM 2 = some 0x00000000 ∧ IsPrefixMask 0x00000000 ∧
    demo.readM 3 = some 0xFFFFFFFF ∧ IsPrefixMask 0xFFFFFFFF :=
  ⟨rfl, rfl, prefix_masks.1, rfl, prefix_masks.2.2.1⟩

theorem test_hypotheses_MtbGivesTheMaskBytes : demo.readM 5 = none ∧ demo.readM 1 = some 0xFFFFFFF0 := by decide

theorem test_hypotheses_MandIntersectsMasks :
    (demo.readM 5 = none ∨ demo.readM 0 = none) ∧ (demo.readM 0 = none ∨ demo.readM 5 = none) ∧
    demo.readM 2 = some 0x00000000 ∧ demo.readM 1 = some 0xFFFFFFF0 ∧ IsPrefixMask 0x00000000 ∧ IsPrefixMask 0xFFFFFFF0 :=
  ⟨.inl rfl, .inr rfl, rfl, rfl, prefix_masks.1, prefix_masks.2.1⟩

theorem test_hypotheses_MorUnitesMasksWithAbsentIdentity : demo.readM 5 = none ∧ demo.readM 6 = none ∧
    demo.readM 2 = some 0x00000000 ∧ demo.readM 1 = some 0xFFFFFFF0 ∧ IsPrefixMask 0x00000000 ∧ IsPrefixMask 0xFFFFFFF0 :=
  ⟨rfl, rfl, rfl, rfl, prefix_masks.1, prefix_masks.2.1⟩

theorem test_hypotheses_MextLengthensThePrefixClamped : demo.readM 5 = none ∧ demo.readM 0 = some 0xFFFFFF00 := by decide

theorem test_hypotheses_MabrShortensThePrefixClamped : demo.readM 5 = none ∧ demo.readM 0 = some 0xFFFFFF00 := by decide

theorem test_hypotheses_MeqComparesMasks : (demo.readM 5 = none ∨ demo.readM 0 = none) ∧ demo.readM 0 = some 0xFFFFFF00 ∧
    demo.readM 1 = some 0xFFFFFFF0 ∧ IsPrefixMask 0xFFFFFF00 ∧ IsPrefixMask 0xFFFFFFF0 :=
  ⟨.inl rfl, rfl, rfl, prefix_masks.2.2.2, prefix_masks.2.1⟩

theorem test_hypotheses_MaskRoundTrips : (withScalar 0).din.extractLsb' 0 32 = BitVec.ofNat 32 0 ∧
    (withScalar 32).din.extractLsb' 0 32 = BitVec.ofNat 32 32 ∧ demo.readM 1 = some 0xFFFFFFF0 ∧ IsPrefixMask 0xFFFFFFF0 :=
  ⟨by decide, by decide, rfl, prefix_masks.2.1⟩

/-- For `NPFX`, `HOSTID`, `SCNT`, `SSTART`: the mask absent, the address absent, a 16-byte and an empty address, and a present
mask with a 4-byte address. -/
theorem test_hypotheses_NpfxExtractsTheNetworkPrefix : (demo.readM 5 = none ∨ demo.readB 0 = none) ∧
    (demo.readM 0 = none ∨ demo.readB 3 = none) ∧ demo.readB 5 = some (List.replicate 16 0xFF) ∧
    (List.replicate 16 (0xFF : Byte)).length ≠ 4 ∧ demo.readB 6 = some [] ∧ ([] : List Byte).length ≠ 4 ∧
    demo.readM 0 = some (addrOf 0xFF 0xFF 0xFF 0x00) ∧ demo.readB 0 = some [0x0A, 0x14, 0x1E, 0x28] := by decide

theorem test_hypotheses_HostidExtractsTheHostIdentifier : (demo.readM 5 = none ∨ demo.readB 0 = none) ∧
    (demo.readM 0 = none ∨ demo.readB 3 = none) ∧ demo.readB 5 = some (List.replicate 16 0xFF) ∧
    (List.replicate 16 (0xFF : Byte)).length ≠ 4 ∧
    demo.readM 0 = some (addrOf 0xFF 0xFF 0xFF 0x00) ∧ demo.readB 0 = some [0x0A, 0x14, 0x1E, 0x28] := by decide

theorem test_hypotheses_PrefixAndHostPartitionTheAddress :
    (2 : RegIdx) ≠ 1 ∧ (1 : RegIdx) ≠ 0 ∧ (4 : RegIdx) ≠ 1 ∧ (4 : RegIdx) ≠ 2 ∧
    demo.readM 0 = some 0xFFFFFF00 ∧ demo.readB 0 = some [0x0A, 0x14, 0x1E, 0x28] ∧
    ([0x0A, 0x14, 0x1E, 0x28] : List Byte).length = 4 := by decide

/-- The masks of length 32 and 0, and an address that is the network identifier and one that is the broadcast address. -/
theorem test_hypotheses_ScntGivesTheClosedForm : (demo.readM 5 = none ∨ demo.readB 0 = none) ∧
    demo.readB 5 = some (List.replicate 16 0xFF) ∧ (List.replicate 16 (0xFF : Byte)).length ≠ 4 ∧
    demo.readM 3 = some 0xFFFFFFFF ∧ cidr 0xFFFFFFFF#32 = 32 ∧ demo.readM 2 = some 0x00000000 ∧ cidr 0x00000000#32 ≠ 32 ∧
    demo.readB 7 = some [0xFF, 0xFF, 0xFF, 0xF8] ∧ addrOf 0xFF 0xFF 0xFF 0xF8 = 0xFFFFFFF8#32 ∧
    (0xFFFFFF00#32 = 0xFFFFFF00#32 &&& 0xFFFFFFF8#32) ∧ (0xFFFFFFFF#32 = 0xFFFFFF00#32 ||| ~~~0xFFFFFF00#32) := by decide

theorem test_hypotheses_SiblingCountIsTheNumberOfSiblings : demo.readM 1 = some 0xFFFFFFF0 ∧ IsPrefixMask 0xFFFFFFF0 ∧
    demo.readM 3 = some 0xFFFFFFFF ∧ IsPrefixMask 0xFFFFFFFF ∧ demo.readB 0 = some [0x0A, 0x14, 0x1E, 0x28] :=
  ⟨rfl, prefix_masks.2.1, rfl, prefix_masks.2.2.1, rfl⟩

theorem test_hypotheses_SstartBeginsAnEnumeration : (demo.readM 0 = none ∨ demo.readB 3 = none) ∧
    demo.readB 5 = some (List.replicate 16 0xFF) ∧ (List.replicate 16 (0xFF : Byte)).length ≠ 4 ∧
    demo.readM 0 = some 0xFFFFFF00 ∧ demo.readB 0 = some [0x0A, 0x14, 0x1E, 0x28] ∧
    addrOf 0x0A 0x14 0x1E 0x28 = 0x0A141E28#32 ∧ (0x0A141E00#32 = 0xFFFFFF00#32 &&& 0x0A141E28#32) := by decide

/-- No iterator; one at its start; one at its last address (c is the broadcast address); one beyond it. -/
theorem test_hypotheses_SnextDeliversTheNextSibling : ({ demo with it := none } : State).it = none ∧
    demo.it = some demoIter ∧ demoIter.Inv ∧ ({ demoIter with cur := 0x0C0A8B207 } : Iter).Inv ∧
    ({ demoIter with cur := 0x0C0A8B208 } : Iter).Inv :=
  ⟨rfl, rfl, demoIter_inv, demoIter_inv_ends.1, demoIter_inv_ends.2⟩

/-- A /28 with no flag set: 13 siblings of 10.20.30.40, so 14 `SNEXT` reach the end. -/
theorem test_hypotheses_EnumerationDeliversTheSiblingsInOrder : demo.readM 1 = some 0xFFFFFFF0 ∧ IsPrefixMask 0xFFFFFFF0 ∧
    demo.readB 0 = some [0x0A, 0x14, 0x1E, 0x28] ∧ addrOf 0x0A 0x14 0x1E 0x28 = 0x0A141E28#32 ∧
    (0x0A141E20#32 = 0xFFFFFFF0#32 &&& 0x0A141E28#32) ∧ (0x0A141E2F#32 = 0x0A141E20#32 ||| ~~~0xFFFFFFF0#32) ∧
    (siblings 0xFFFFFFF0 0x0A141E28 ⟨false, false, false⟩).length < 14 :=
  ⟨rfl, prefix_masks.2.1, rfl, by decide, by decide, by decide, by decide⟩

end Sys2Proof.Tests
end

section
/-! Proofs: what a command can do to the state, once for all commands, and the frames that follow from it. -/

namespace Sys2Proof.Machine

/-! ### What a command can do -/

/-- The outcomes open to the command `i` in the state `s`: which fields it may write, and when. What it writes there is the
matter of the command's own statement. Every frame over all commands is a case split on this relation. -/
inductive CommandEffect (i : Instr) (s : State) : Outcome → Prop where
  | raise {k : ErrorKind} (herr : errorOf i s = some k) : CommandEffect i s (s.raise k)
  | clearErrors (hi : i = .clre) : CommandEffect i s (execClre s)
  | buffer {j : RegIdx} {v : Option (List Byte)} (hd : bufferDest i = some j) (hok : Safe i s) :
      CommandEffect i s (s.writeB j v).succeed
  | mask {j : RegIdx} {w : Option Mask} (hd : maskDest i = some j) (hok : Safe i s) :
      CommandEffect i s (s.writeM j w).succeed
  | scalar {n : Nat} (hw : writesSR i = true) (hok : Safe i s) : CommandEffect i s (s.writeSR n).succeed
  | latch {a : List Byte} (hw : writesDOUT i = true) (hok : Safe i s) : CommandEffect i s (s.writeDOUT a).succeed
  | start {ma bb : RegIdx} {o : SibOpts} {u : Iter} (hi : i = .sstart ma bb o) (hok : Safe i s) :
      CommandEffect i s (State.succeed { s with it := some u, st := stSetEos (stSetAct s.st true) false })
  | deliver {bd : RegIdx} {u : Iter} {v : Option (List Byte)} {c : Cursor} (hi : i = .snext bd) (hit : s.it = some u) :
      CommandEffect i s
        (State.succeed { s.writeB bd v with it := some { u with cur := c }, st := stSetEos s.st false })
  | ended {bd : RegIdx} {u : Iter} {c : Cursor} (hi : i = .snext bd) (hit : s.it = some u) :
      CommandEffect i s (State.succeed { s with it := some { u with cur := c }, st := stSetEos s.st true })

namespace CommandEffect

variable {i : Instr} {s : State}

/-! One rule per operand shape (60 R212): a command whose error is that of the shape, and which otherwise goes on within its
effect, acts within its effect. -/

/-- One buffer source. -/
theorem sourceB {ba : RegIdx} {k : List Byte → Outcome}
    (herr : errorOf i s = if s.readB ba = none then some .invalidArgument else none)
    (hk : ∀ a, Safe i s → CommandEffect i s (k a)) : CommandEffect i s (s.needB ba k) := by
  rcases s.needB_cases ba k with ⟨h, e⟩ | ⟨a, h, e⟩ <;> rw [e]
  · exact .raise (by rw [herr, if_pos h])
  · exact hk a (by simp [Safe, herr, h])

/-- Two buffer sources. -/
theorem sourcesB {ba bb : RegIdx} {k : List Byte → List Byte → Outcome}
    (herr : errorOf i s = if s.readB ba = none ∨ s.readB bb = none then some .invalidArgument else none)
    (hk : ∀ a b, Safe i s → CommandEffect i s (k a b)) :
    CommandEffect i s (s.needB ba fun a => s.needB bb fun b => k a b) := by
  rcases s.needB_cases ba _ with ⟨h, e⟩ | ⟨a, h, e⟩ <;> rw [e]
  · exact .raise (by rw [herr, if_pos (.inl h)])
  · exact .sourceB (by simp [herr, h]) (hk a)

/-- One mask source. -/
theorem sourceM {ma : RegIdx} {k : Mask → Outcome}
    (herr : errorOf i s = if s.readM ma = none then some .invalidArgument else none)
    (hk : ∀ m, Safe i s → CommandEffect i s (k m)) : CommandEffect i s (s.needM ma k) := by
  rcases s.needM_cases ma k with ⟨h, e⟩ | ⟨m, h, e⟩ <;> rw [e]
  · exact .raise (by rw [herr, if_pos h])
  · exact hk m (by simp [Safe, herr, h])

/-- Two mask sources. -/
theorem sourcesM {ma mb : RegIdx} {k : Mask → Mask → Outcome}
    (herr : errorOf i s = if s.readM ma = none ∨ s.readM mb = none then some .invalidArgument else none)
    (hk : ∀ a b, Safe i s → CommandEffect i s (k a b)) :
    CommandEffect i s (s.needM ma fun a => s.needM mb fun b => k a b) := by
  rcases s.needM_cases ma _ with ⟨h, e⟩ | ⟨a, h, e⟩ <;> rw [e]
  · exact .raise (by rw [herr, if_pos (.inl h)])
  · exact .sourceM (by simp [herr, h]) (hk a)

/-- A mask and an address; the topology unit's four commands have the error rule of `NPFX` (42 R160). -/
theorem subnet {ma bb : RegIdx} {k : Mask → Addr → Outcome} (herr : errorOf i s = errorOf (.npfx 0 ma bb) s)
    (hk : ∀ m a, Safe i s → CommandEffect i s (k m a)) : CommandEffect i s (s.needSubnet ma bb k) := by
  rcases s.needSubnet_cases ma bb k with ⟨h, e⟩ | ⟨m, a, hm, ha, ⟨h4, e⟩ | ⟨h4, e⟩⟩ <;> rw [e]
  · exact .raise (herr.trans (by rcases h with h | h <;> simp [errorOf, h]))
  · exact .raise (herr.trans (by simp [errorOf, hm, ha, h4]))
  · exact hk m _ (herr.trans (by simp [errorOf, hm, ha, h4]))

end CommandEffect

/-- The range check of `MFC` (41 R132) is the one of the error table. -/
theorem execMfc_effect (md : RegIdx) (s : State) : CommandEffect (.mfc md) s (execMfc md s) := by
  have herr : errorOf (.mfc md) s =
      if 0 ≤ s.scalarOperand ∧ s.scalarOperand ≤ 32 then none else some .invalidArgument := rfl
  by_cases h : s.scalarOperand < 0 ∨ s.scalarOperand > 32
  · rw [execMfc, if_pos h]
    exact .raise (by rw [herr, if_neg (by omega)])
  · rw [execMfc, if_neg h]
    exact .mask rfl (by rw [Safe, herr, if_pos (by omega)])

/-- The three checks of `MFB` (41 R133), in order, are those of the error table. -/
theorem execMfb_effect (md ba : RegIdx) (s : State) : CommandEffect (.mfb md ba) s (execMfb md ba s) := by
  unfold execMfb
  rcases s.needB_cases ba _ with ⟨h, e⟩ | ⟨b, h, e⟩ <;> rw [e]
  · exact .raise (k := .invalidArgument) (by simp [errorOf, h])
  · have herr : errorOf (.mfb md ba) s =
        if b.length = Config.maskBytes ∧ validMask b = true then none else some .invalidArgument := by
      simp [errorOf, validMask, Config.maskBytes, h]
    by_cases h4 : b.length = Config.maskBytes
    · rw [if_neg (not_not.mpr h4)]
      split
      · next hv => exact .mask rfl (by rw [Safe, herr, if_pos ⟨h4, hv⟩])
      · next hv => exact .raise (by rw [herr, if_neg fun hc => hv hc.2])
    · rw [if_pos h4]
      exact .raise (by rw [herr, if_neg fun hc => h4 hc.1])

/-- `SNEXT` (42 R167): no iterator, a candidate left, or none left. -/
theorem execSnext_effect (bd : RegIdx) (s : State) : CommandEffect (.snext bd) s (execSnext bd s) := by
  unfold execSnext
  cases h : s.it with
  | none => exact .raise (by simp [errorOf, h])
  | some u =>
    dsimp only
    split
    · exact .deliver rfl h
    · exact .ended rfl h

/-- Every command acts within its effect. -/
theorem exec_effect (i : Instr) (s : State) : CommandEffect i s (exec i s) := by
  cases i with
  | clre => exact .clearErrors rfl
  | bld | bclr => exact .buffer rfl rfl
  | mclr | memp | mor => exact .mask rfl rfl
  | brd => exact .sourceB rfl fun _ ok => .latch rfl ok
  | mrd => exact .sourceM rfl fun _ ok => .latch rfl ok
  | band | bor | bxor => exact .sourcesB rfl fun _ _ ok => .buffer rfl ok
  | bnot => exact .sourceB rfl fun _ ok => .buffer rfl ok
  | cntl | cntt | bvalid => exact .sourceB rfl fun _ ok => .scalar rfl ok
  | mfc md => exact execMfc_effect md s
  | mfb md ba => exact execMfb_effect md ba s
  | mcidr => exact .sourceM rfl fun _ ok => .scalar rfl ok
  | mtb => exact .sourceM rfl fun _ ok => .buffer rfl ok
  | mand => exact .sourcesM rfl fun _ _ ok => .mask rfl ok
  | mext | mabr => exact .sourceM rfl fun _ ok => .mask rfl ok
  | meq => exact .sourcesM rfl fun _ _ ok => .scalar rfl ok
  | npfx => rw [exec, execNpfx]; exact .subnet rfl fun _ _ ok => .buffer rfl ok
  | hostid => rw [exec, execHostid]; exact .subnet rfl fun _ _ ok => .buffer rfl ok
  | scnt => rw [exec, execScnt]; exact .subnet rfl fun _ _ ok => .scalar rfl ok
  | sstart => rw [exec, execSstart]; exact .subnet rfl fun _ _ ok => .start rfl ok
  | snext bd => exact execSnext_effect bd s

/-! ### The host's side -/

/-- Whatever a command may do, it leaves the sampled port and the inputs to come as they were. -/
theorem CommandEffect.keeps_hostSide {i : Instr} {s t : State} {o : Outcome} (he : CommandEffect i s o) (h : o = .next t) :
    t.din = s.din ∧ t.inputs = s.inputs := by
  cases he <;> cases h <;> exact ⟨rfl, rfl⟩

/-- Settles O21: no case of `CommandEffect` writes either field. -/
theorem commandsLeaveTheHostSideAlone : Obligations.CommandsLeaveTheHostSideAlone :=
  fun i s _ h => (exec_effect i s).keeps_hostSide h

end Sys2Proof.Machine
end

section
/-! Proofs: how a command writes the status register (10 R34, R35), and the frames of `SR`, `DOUT`, the two register files and
the iterator over all commands (10 R23, R29, R31, R32, R40), each a case split on `CommandEffect`; and `cidrmask` with its inverse
`cidr` (10 R30). -/

namespace Sys2Proof.Machine

variable {i : Instr} {s t : State} {o : Outcome}

/-! ### Failing and succeeding commands -/

/-- `SNEXT` fails only when there is no iterator (60 R212). -/
theorem safe_snext_of_iter {bd : RegIdx} {u : Iter} (hit : s.it = some u) : Safe (.snext bd) s := by
  simp [Safe, errorOf, hit]

/-- A command with an error raises it, and does nothing else. -/
theorem CommandEffect.eq_raise {k : ErrorKind} (he : CommandEffect i s o) (herr : errorOf i s = some k) :
    o = s.raise k := by
  cases he with
  | raise h => rw [Option.some.inj (h.symm.trans herr)]
  | clearErrors hi => subst hi; cases herr
  | buffer _ hok | mask _ hok | scalar _ hok | latch _ hok | start _ hok => cases hok.symm.trans herr
  | deliver hi hit | ended hi hit => subst hi; cases (safe_snext_of_iter hit).symm.trans herr

theorem exec_of_error {k : ErrorKind} (herr : errorOf i s = some k) : exec i s = s.raise k :=
  (exec_effect i s).eq_raise herr

/-- The status register after a failing command (10 R34). -/
theorem st_of_error {k : ErrorKind} (h : exec i s = .next t) (herr : errorOf i s = some k) : t.st = stFail s.st k := by
  cases (exec_of_error herr).symm.trans h
  rfl

/-- A word that does not decode raises `IllegalCommand` (30 R90). -/
theorem step_of_decode_error {cw : CmdWord} {din : DinWord} {rest : List HostEvent} {e : DecodeError}
    (hin : s.inputs = .command cw din :: rest) (hd : decode cw = .error e) :
    step s = ({ s with din := din, inputs := rest } : State).raise .illegalCommand := by
  simp [step, State.sample, hin, hd, execIllegal]

theorem st_of_decode_error {cw : CmdWord} {din : DinWord} {rest : List HostEvent} {e : DecodeError}
    (hin : s.inputs = .command cw din :: rest) (hd : decode cw = .error e) (h : step s = .next t) :
    t.st = stFail s.st .illegalCommand := by
  cases (step_of_decode_error hin hd).symm.trans h
  rfl

/-! ### The status register -/

/-- A successful command ends in `stOk`, or is `CLRE`, which ends in `stClearErrors`: both leave code 0. -/
theorem CommandEffect.code_of_safe (he : CommandEffect i s o) (h : o = .next t) (hok : Safe i s) : stCode t.st = 0 := by
  cases he with
  | raise herr => cases hok.symm.trans herr
  | clearErrors => cases h; exact stCode_stClearErrors _
  | _ => cases h; exact stCode_stOk _

/-- `stOk` and the writes of `EOS` and `ACT` leave the sticky flags. -/
theorem CommandEffect.sticky_of_safe (he : CommandEffect i s o) (h : o = .next t) (hok : Safe i s) (hi : i ≠ .clre) :
    stEia t.st = stEia s.st ∧ stEun t.st = stEun s.st ∧ stEil t.st = stEil s.st := by
  cases he with
  | raise herr => cases hok.symm.trans herr
  | clearErrors hc => exact absurd hc hi
  | _ => cases h; simp

/-- Settles O14: a safe command is a case of `CommandEffect` other than `raise`, a failing one is that case. -/
theorem codeAndStickyFlagsAreWrittenAsSpecified : Obligations.CodeAndStickyFlagsAreWrittenAsSpecified := by
  refine ⟨fun i s t h => ⟨fun hok => (exec_effect i s).code_of_safe h hok,
    fun hok hi => (exec_effect i s).sticky_of_safe h hok hi, ?clre, ?invalidArgument, ?unsupported⟩, ?illegal⟩
  case clre =>
    rintro rfl
    cases h
    simp
  case invalidArgument =>
    intro herr
    simp [st_of_error h herr, ErrorKind.code]
  case unsupported =>
    intro herr
    simp [st_of_error h herr, ErrorKind.code]
  case illegal =>
    intro cw din rest e s t hin hd h
    simp [st_of_decode_error hin hd h, ErrorKind.code]

/-- `EOS` and `ACT` are written by the two iterator commands alone. -/
theorem CommandEffect.keeps_eos_act (he : CommandEffect i s o) (h : o = .next t)
    (hstart : ∀ ma bb f, i ≠ .sstart ma bb f) (hnext : ∀ bd, i ≠ .snext bd) :
    stEos t.st = stEos s.st ∧ stAct t.st = stAct s.st := by
  cases he with
  | start hi => exact absurd hi (hstart _ _ _)
  | deliver hi | ended hi => exact absurd hi (hnext _)
  | _ => cases h; simp

/-- A successful `SSTART` clears `EOS` and sets `ACT` (42 R166). -/
theorem CommandEffect.sstart_eos_act {ma bb : RegIdx} {f : SibOpts} (he : CommandEffect (.sstart ma bb f) s o)
    (h : o = .next t) (hok : Safe (.sstart ma bb f) s) : stEos t.st = false ∧ stAct t.st = true := by
  cases he with
  | raise herr => cases hok.symm.trans herr
  | start => cases h; simp
  | clearErrors hi | deliver hi | ended hi => cases hi
  | buffer hd | mask hd => cases hd
  | scalar hw | latch hw => cases hw

/-- `SNEXT` with an iterator sets `EOS` exactly when its candidate is beyond the broadcast address (42 R167). -/
theorem execSnext_st {bd : RegIdx} {u : Iter} (hit : s.it = some u) (h : execSnext bd s = .next t) :
    t.st = stOk (stSetEos s.st (!u.within u.candidate)) := by
  simp only [execSnext, hit] at h
  split at h <;> next hw => cases h; simp [hw]

/-- The candidate is beyond the broadcast address exactly when every address from `cur` on is excluded. -/
theorem Iter.Inv.exhausted_iff {u : Iter} (hu : u.Inv) :
    u.within u.candidate = false ↔ ∀ x : Addr, u.cur.toNat ≤ x.toNat → x ≤ u.bcast →
      SiblingExcluded u.net u.bcast u.self u.opts x := by
  obtain ⟨hge, -, hskipped, hstop⟩ := u.candidate_spec hu
  rw [← Bool.not_eq_true, Iter.within_iff]
  constructor
  · intro hout x hx hxb
    have hxb : x.toNat ≤ u.bcast.toNat := hxb
    simpa using (hskipped x.toNat hx (by omega)).2
  · intro hall hin
    have hlt := u.bcast.isLt
    have hc : (BitVec.ofNat 32 u.candidate.toNat).toNat = u.candidate.toNat := by
      rw [BitVec.toNat_ofNat, Nat.mod_eq_of_lt (by omega)]
    exact hstop hin (hall _ (by omega) (by rw [BitVec.le_def]; omega))

/-- `SNEXT` never writes `ACT` (10 R35). -/
theorem snext_keeps_act {bd : RegIdx} (h : exec (.snext bd) s = .next t) : stAct t.st = stAct s.st := by
  cases hit : s.it with
  | none => simp [st_of_error (k := .invalidArgument) h (by simp [errorOf, hit])]
  | some u => simp [execSnext_st hit h]

theorem snext_eos_iff {bd : RegIdx} {u : Iter} (h : exec (.snext bd) s = .next t) (hit : s.it = some u) (hu : u.Inv) :
    stEos t.st = true ↔ ∀ x : Addr, u.cur.toNat ≤ x.toNat → x ≤ u.bcast →
      SiblingExcluded u.net u.bcast u.self u.opts x := by
  rw [← hu.exhausted_iff, execSnext_st hit h]
  simp

/-- Settles O15: `CommandEffect` gives the frame, and under the iterator's invariant the candidate of `SNEXT` tells whether an
address is left. -/
theorem eosAndActAreWrittenByTheIteratorCommands : Obligations.EosAndActAreWrittenByTheIteratorCommands := by
  refine ⟨fun i s t h => ⟨?sstart, ?snext, ?failing, fun hstart hnext => (exec_effect i s).keeps_eos_act h hstart hnext⟩,
    ?illegal⟩
  case sstart =>
    rintro ma bb f rfl hok
    exact (exec_effect _ s).sstart_eos_act h hok
  case snext =>
    rintro bd rfl
    exact ⟨snext_keeps_act h, fun u hit hu =>
      ⟨(exec_effect _ s).code_of_safe h (safe_snext_of_iter hit), snext_eos_iff h hit hu⟩⟩
  case failing =>
    intro hfail
    obtain ⟨k, herr⟩ := Option.ne_none_iff_exists'.mp hfail
    simp [st_of_error h herr]
  case illegal =>
    intro cw din rest e s t hin hd h
    simp [st_of_decode_error hin hd h]

/-! ### Frames -/

/-- A buffer register that a write changes is the one written. -/
theorem State.eq_of_readB_writeB_ne {d j : RegIdx} {v : Option (List Byte)}
    (h : (s.writeB d v).readB j ≠ s.readB j) : d = j :=
  not_imp_comm.mp State.readB_writeB_of_ne h

/-- A mask register that a write changes is the one written. -/
theorem State.eq_of_readM_writeM_ne {d j : RegIdx} {w : Option Mask}
    (h : (s.writeM d w).readM j ≠ s.readM j) : d = j :=
  not_imp_comm.mp State.readM_writeM_of_ne h

/-- Settles O16: the one case of `CommandEffect` that writes `SR` is `scalar`. -/
theorem onlyScalarCommandsWriteSR : Obligations.OnlyScalarCommandsWriteSR := by
  intro i s t h hne
  cases h ▸ exec_effect i s with
  | scalar hw hok => exact ⟨hw, hok⟩
  | _ => exact absurd rfl hne

/-- Settles O17: the one case of `CommandEffect` that writes `DOUT` is `latch`. -/
theorem onlyReadoutCommandsWriteDOUT : Obligations.OnlyReadoutCommandsWriteDOUT := by
  intro i s t h hne
  cases h ▸ exec_effect i s with
  | latch hw hok => exact ⟨hw, hok⟩
  | _ => exact absurd rfl hne

/-- Settles O18: `buffer` and `deliver` write one buffer register, the destination. -/
theorem onlyTheDestinationBufferChanges : Obligations.OnlyTheDestinationBufferChanges := by
  intro i s t j h hne
  cases h ▸ exec_effect i s with
  | buffer hd hok => exact ⟨State.eq_of_readB_writeB_ne hne ▸ hd, hok⟩
  | deliver hi hit => subst hi; exact ⟨congrArg some (State.eq_of_readB_writeB_ne hne), safe_snext_of_iter hit⟩
  | _ => exact absurd rfl hne

/-- Settles O19: `mask` writes one mask register, the destination. -/
theorem onlyTheDestinationMaskChanges : Obligations.OnlyTheDestinationMaskChanges := by
  intro i s t j h hne
  cases h ▸ exec_effect i s with
  | mask hd hok => exact ⟨State.eq_of_readM_writeM_ne hne ▸ hd, hok⟩
  | _ => exact absurd rfl hne

/-- What a command does to the iterator: nothing, or `SSTART` writes it, or `SNEXT` moves its `cur` (10 R40). -/
theorem CommandEffect.it_cases (he : CommandEffect i s o) (h : o = .next t) :
    t.it = s.it ∨ (∃ ma bb f, i = .sstart ma bb f) ∨
      ∃ bd u c, i = .snext bd ∧ s.it = some u ∧ t.it = some { u with cur := c } := by
  cases he with
  | start hi => exact .inr (.inl ⟨_, _, _, hi⟩)
  | deliver hi hit | ended hi hit => cases h; exact .inr (.inr ⟨_, _, _, hi, hit, rfl⟩)
  | _ => cases h; exact .inl rfl

/-- Settles O20: an iterator that `SNEXT` leaves as it is has its own `cur`. -/
theorem onlyIteratorCommandsWriteTheIterator : Obligations.OnlyIteratorCommandsWriteTheIterator := by
  intro i s t h
  constructor
  · rintro bd rfl
    rcases (exec_effect _ s).it_cases h with hkeep | ⟨_, _, _, hi⟩ | ⟨_, u, c, -, hit, hit'⟩
    · cases hit : s.it with
      | none => exact .inl ⟨rfl, hkeep.trans hit⟩
      | some u => exact .inr ⟨u, u.cur, rfl, hkeep.trans hit⟩
    · cases hi
    · exact .inr ⟨u, c, hit, hit'⟩
  · intro hstart hnext
    rcases (exec_effect i s).it_cases h with hkeep | ⟨_, _, _, hi⟩ | ⟨_, _, _, hi, -, -⟩
    · exact hkeep
    · exact absurd hi (hstart _ _ _)
    · exact absurd hi (hnext _)

/-! ### `cidrmask` and `cidr` -/

/-- Settles O38, from the bits and the value of `cidrmask` and the run that `cidr` counts. -/
theorem cidrmaskAndCidrAreInverse : Obligations.CidrmaskAndCidrAreInverse := by
  refine ⟨fun n hn => ⟨fun p hp => ?bits, ?value, cidr_cidrmask n hn⟩, cidr_spec⟩
  case bits =>
    rw [cidrmask_getLsbD n _ hn (by omega)]
    exact decide_eq_decide.mpr (by omega)
  case value =>
    rw [cidrmask_toNat]
    split
    · next h => simp [h]
    · rfl

end Sys2Proof.Machine
end

section
/-! Proofs: the ports (20 R64 to R67). A step runs the command it decodes; a command reads no more of `DIN` than its operand; the
response port packs the bytes of `DOUT`. -/

namespace Sys2Proof.Machine

/-! ### The command port -/

/-- Settles O5: `step` samples the event, then decodes its word. -/
theorem stepRunsTheDecodedCommand : Obligations.StepRunsTheDecodedCommand := by
  intro cw din rest s i hin hd
  simp [step, State.sample, hin, hd]

/-! ### Operand data -/

/-- The outcome `o'` is `o`, but for the sampled port, which holds `d`. -/
def EqUpToDin (d : DinWord) (o o' : Outcome) : Prop := ∀ t, o = .next t → o' = .next { t with din := d }

namespace EqUpToDin

variable {d : DinWord} {s : State}

/-- A command's end: nothing that ends a command reads the port. -/
theorem next : EqUpToDin d (.next s) (.next { s with din := d }) := by
  rintro _ ⟨⟩
  rfl

/-! One rule per operand shape: the checks read registers only, so what follows them decides. -/

theorem needB {ba : RegIdx} {k k' : List Byte → Outcome} (hk : ∀ a, EqUpToDin d (k a) (k' a)) :
    EqUpToDin d (s.needB ba k) (({ s with din := d } : State).needB ba k') := by
  cases hb : s.readB ba with
  | none => rw [State.needB_none hb, State.needB_none (s := { s with din := d }) hb]; exact next
  | some a => rw [State.needB_some hb, State.needB_some (s := { s with din := d }) hb]; exact hk a

theorem needM {ma : RegIdx} {k k' : Mask → Outcome} (hk : ∀ m, EqUpToDin d (k m) (k' m)) :
    EqUpToDin d (s.needM ma k) (({ s with din := d } : State).needM ma k') := by
  cases hm : s.readM ma with
  | none => rw [State.needM_none hm, State.needM_none (s := { s with din := d }) hm]; exact next
  | some m => rw [State.needM_some hm, State.needM_some (s := { s with din := d }) hm]; exact hk m

theorem needSubnet {ma bb : RegIdx} {k k' : Mask → Addr → Outcome} (hk : ∀ m a, EqUpToDin d (k m a) (k' m a)) :
    EqUpToDin d (s.needSubnet ma bb k) (({ s with din := d } : State).needSubnet ma bb k') :=
  needM fun m => needB fun a => by
    split
    · exact hk m _
    · exact next

end EqUpToDin

variable {d d' : DinWord} {s : State}

/-- `MFC` reads the port through its scalar operand alone (41 R132). -/
theorem execMfc_eqUpToDin (md : RegIdx)
    (h : ({ s with din := d } : State).scalarOperand = s.scalarOperand) :
    EqUpToDin d (execMfc md s) (execMfc md { s with din := d }) := by
  simp only [execMfc, h]
  split <;> exact .next

/-- `SNEXT` reads the iterator alone (42 R167). -/
theorem execSnext_eqUpToDin (bd : RegIdx) :
    EqUpToDin d (execSnext bd s) (execSnext bd { s with din := d }) := by
  obtain ⟨b, m, sr, dout, st, it, din, inputs⟩ := s
  cases it with
  | none => exact .next
  | some u =>
    dsimp only [execSnext]
    split <;> exact .next

/-- The port reaches a command's outcome through its buffer operand (`BLD`) or its scalar operand (`MFC`, `MEXT`, `MABR`). -/
theorem exec_eqUpToDin (i : Instr)
    (hbuf : ∀ bd len, i = .bld bd len →
      ({ s with din := d } : State).bufferOperand len.toNat = s.bufferOperand len.toNat)
    (hscalar : readsDIN i = true → (∀ bd len, i ≠ .bld bd len) →
      ({ s with din := d } : State).scalarOperand = s.scalarOperand) :
    EqUpToDin d (exec i s) (exec i { s with din := d }) := by
  cases i with
  | clre | bclr | mclr | memp | mor => exact .next
  | bld bd len =>
    simp only [exec, execBld, hbuf bd len rfl]
    exact .next
  | mfc md => exact execMfc_eqUpToDin md (hscalar rfl nofun)
  | mext | mabr =>
    simp only [exec, execMext, execMabr, hscalar rfl nofun]
    exact .needM fun _ => .next
  | brd | bnot | cntl | cntt | bvalid => exact .needB fun _ => .next
  | band | bor | bxor => exact .needB fun _ => .needB fun _ => .next
  | mrd | mcidr | mtb => exact .needM fun _ => .next
  | mand | meq => exact .needM fun _ => .needM fun _ => .next
  | mfb md ba =>
    refine .needB fun b => ?_
    split
    · exact .next
    · split <;> exact .next
  | npfx | hostid | scnt | sstart =>
    dsimp only [exec, execNpfx, execHostid, execScnt, execSstart]
    exact .needSubnet fun _ _ => .next
  | snext bd => exact execSnext_eqUpToDin bd

/-- The buffer of `len` bytes on the port depends on the topmost `8 * len` bits (20 R64). -/
theorem bufferOperand_congr {len : Nat} (h : ∀ j, j < 8 * len → d.getLsbD (127 - j) = d'.getLsbD (127 - j)) :
    ({ s with din := d' } : State).bufferOperand len = ({ s with din := d } : State).bufferOperand len := by
  refine List.map_congr_left fun i hi => BitVec.eq_of_getLsbD_eq fun k hk => ?_
  have hi : i < len := List.mem_range.mp hi
  have hbit := h (127 - (120 - 8 * i + k)) (by omega)
  rw [Nat.sub_sub_self (by omega)] at hbit
  simp only [dinByte, BitVec.getLsbD_extractLsb', hbit]

/-- Settles O22: the bits on which the two values agree are those of the command's operand. -/
theorem unusedOperandDataIsIgnored : Obligations.UnusedOperandDataIsIgnored := by
  intro i s t d d' hagree
  refine exec_eqUpToDin (s := { s with din := d }) i ?buffer ?scalar t
  case buffer =>
    rintro bd len rfl
    rcases hagree rfl with ⟨_, _, hi, hbits⟩ | ⟨hne, -⟩
    · cases hi
      exact bufferOperand_congr hbits
    · exact absurd rfl (hne bd len)
  case scalar =>
    intro hreads hne
    rcases hagree hreads with ⟨bd, len, hi, -⟩ | ⟨-, hlow⟩
    · exact absurd hi (hne bd len)
    · exact congrArg BitVec.toInt hlow.symm

/-! ### The response port -/

/-- The bytes of a list side by side on a 128-bit port, the last one lowest. -/
def packBytes (l : List Byte) : BitVec 128 := l.foldl (fun acc x => acc <<< 8 ||| x.setWidth 128) 0

theorem portData_eq_packBytes (a : Vector Byte 16) : portData a = packBytes a.toList := rfl

theorem packBytes_concat (l : List Byte) (x : Byte) :
    packBytes (l ++ [x]) = packBytes l <<< 8 ||| x.setWidth 128 := by
  simp [packBytes]

/-- The lowest byte packed is the last one. -/
theorem packBytes_concat_low (l : List Byte) (x : Byte) : (packBytes (l ++ [x])).extractLsb' 0 8 = x := by
  ext k hk
  have hk' : k < 128 := by omega
  simp [packBytes_concat, hk, hk']

/-- The bytes packed before it stand one byte higher. -/
theorem packBytes_concat_high (l : List Byte) (x : Byte) {q : Nat} (hq : q < 15) :
    (packBytes (l ++ [x])).extractLsb' (8 * (q + 1)) 8 = (packBytes l).extractLsb' (8 * q) 8 := by
  refine BitVec.eq_of_getLsbD_eq fun k hk => ?_
  have hx : x.getLsbD (8 * (q + 1) + k) = false := BitVec.getLsbD_of_ge _ _ (by omega)
  have hp : 8 * (q + 1) + k - 8 = 8 * q + k := by omega
  have hrange : 8 * (q + 1) + k < 128 ∧ ¬ 8 * (q + 1) + k < 8 := by omega
  simp only [BitVec.getLsbD_extractLsb', packBytes_concat, BitVec.getLsbD_or, BitVec.getLsbD_shiftLeft,
    BitVec.getLsbD_setWidth, hx, hp, hrange, decide_true, decide_false, Bool.not_false, Bool.true_and, Bool.and_false,
    Bool.or_false]

/-- Byte `q` of the port, counted from the lowest, is byte `q` of the list from its end. -/
theorem packBytes_extract (l : List Byte) : ∀ q, (hq : q < l.reverse.length) → q < 16 →
    (packBytes l).extractLsb' (8 * q) 8 = l.reverse[q] := by
  induction l using List.reverseRecOn with
  | nil => simp
  | append_singleton l x ih =>
    rintro (_ | q) hq h16
    · simp [packBytes_concat_low]
    · rw [packBytes_concat_high l x (by omega), ih q (by simpa using hq) (by omega)]
      simp

/-- Settles O58: byte `i` of the latch is byte `15 - i` of the port from its lowest. -/
theorem responsePortShowsTheState : Obligations.ResponsePortShowsTheState := by
  refine fun s => ⟨rfl, rfl, rfl, fun i => ?_⟩
  have hpos : 120 - 8 * i.val = 8 * (15 - i.val) := by omega
  have hidx : 16 - 1 - (15 - i.val) = i.val := by omega
  rw [hpos, State.response, portData_eq_packBytes, packBytes_extract _ _ (by simp; omega) (by omega)]
  simp [hidx]

end Sys2Proof.Machine
end

section
/-! Proofs: the command word (30 R81 to R93). A word matches its opcode's row exactly when it is the word of the fields its
format uses; the two round trips and the set of illegal words follow. -/

namespace Sys2Proof

/-! ### The decoder -/

/-- What a word that decodes meets, and what it decodes to (30 R89). -/
theorem decode_eq_ok_iff {cw : CmdWord} {i : Instr} :
    decode cw = .ok i ↔ ∃ r, rowOf (opField cw) = some r ∧ cw &&& r.fmt.mask = r.word ∧
      r.build (fieldsOf cw) = i ∧ i.WellFormed := by
  unfold decode
  cases rowOf (opField cw) with
  | none => simp
  | some r =>
    simp only [Option.some.injEq, exists_eq_left']
    split
    · next hmatch =>
      split
      · next hwf => exact ⟨by rintro ⟨⟩; exact ⟨hmatch, rfl, hwf⟩, fun ⟨_, h, _⟩ => congrArg _ h⟩
      · next hwf => exact ⟨nofun, fun ⟨_, h, hi⟩ => absurd (h ▸ hi) hwf⟩
    · next hmatch => exact ⟨nofun, fun h => absurd h.1 hmatch⟩

/-- A row found is a row of the map, with the opcode asked for. -/
theorem mem_opcodeMap_of_rowOf {op : BitVec 6} {r : OpRow} (h : rowOf op = some r) : r ∈ opcodeMap ∧ r.op = op :=
  ⟨List.mem_of_find?_eq_some h, by simpa using List.find?_some h⟩

/-! ### The fields that a format uses -/

/-- The opcode and the fields that a format uses; every other field is 0 (30 R82, R91). -/
def Format.usedFields : Format → Fields → Fields
  | .z, f => { op := f.op }
  | .d, f => { op := f.op, rd := f.rd }
  | .a, f => { op := f.op, ra := f.ra }
  | .dl, f => { op := f.op, rd := f.rd, len := f.len }
  | .da, f => { op := f.op, rd := f.rd, ra := f.ra }
  | .ab, f => { op := f.op, ra := f.ra, rb := f.rb }
  | .av, f => { op := f.op, ra := f.ra, v := f.v }
  | .dab, f => { op := f.op, rd := f.rd, ra := f.ra, rb := f.rb }
  | .abo, f => { op := f.op, ra := f.ra, rb := f.rb, opts := f.opts }

/-- Every bit of every field 1. -/
def Fields.ones : Fields := ⟨0x3F, 7, 7, 7, 0x1F, ⟨true, true, true⟩, true⟩

/-- The command a row builds has the fields that the row's format uses. -/
theorem OpRow.fields_build {r : OpRow} (hr : r ∈ opcodeMap) {f : Fields} (hop : r.op = f.op) :
    (r.build f).fields = r.fmt.usedFields f := by
  revert r
  simp +contextual [opcodeMap, transferRows, bitwiseRows, netMaskRows, topologyRows, Format.usedFields, Instr.fields]

/-- Every command is built from its own fields by the row of its opcode. -/
theorem Instr.exists_row (i : Instr) : ∃ r, rowOf i.fields.op = some r ∧ r.build i.fields = i := by
  cases i <;> exact ⟨_, rfl, rfl⟩

/-- The fields of a word make the word again, but for the byte below them (30 R81). -/
theorem wordOf_fieldsOf (cw : CmdWord) : wordOf (fieldsOf cw) = cw &&& 0xFFFFFF00#32 := by
  have hshift : cw >>> 8 <<< 8 = cw &&& 0xFFFFFF00#32 := BitVec.shiftLeft_ushiftRight
  rw [← hshift]
  apply BitVec.eq_of_toNat_eq
  have hcw := cw.isLt
  have hv : (cw.getLsbD 8).toNat = cw.toNat / 2 ^ 8 % 2 := by
    rw [BitVec.getLsbD, Nat.toNat_testBit]
  have hreg : ∀ lo, (regField cw lo).val = cw.toNat / 2 ^ lo % 2 ^ 3 := fun lo => by
    rw [← Nat.shiftRight_eq_div_pow, ← BitVec.extractLsb'_toNat]; rfl
  simp only [wordOf_toNat, fieldsOf, optsToBits_optsOfBits, opField, hreg, BitVec.extractLsb'_toNat, hv,
    Nat.shiftRight_eq_div_pow, BitVec.toNat_shiftLeft, BitVec.toNat_ushiftRight, Nat.shiftLeft_eq]
  omega

/-- The bits that two sets of fields have in common. -/
def Fields.and (f g : Fields) : Fields where
  op := f.op &&& g.op
  rd := f.rd &&& g.rd
  ra := f.ra &&& g.ra
  rb := f.rb &&& g.rb
  len := f.len &&& g.len
  opts := optsOfBits (optsToBits f.opts &&& optsToBits g.opts)
  v := f.v && g.v

theorem wordOf_and (f g : Fields) : wordOf (f.and g) = wordOf f &&& wordOf g := by
  have hreg (a b : RegIdx) : BitVec.ofFin (w := 3) (a &&& b) = BitVec.ofFin (w := 3) a &&& BitVec.ofFin (w := 3) b := by
    revert a b; decide
  unfold wordOf
  rw [BitVec.and_append (w := 24) (v := 8), BitVec.and_append (w := 23) (v := 1), BitVec.and_append (w := 20) (v := 3),
    BitVec.and_append (w := 15) (v := 5), BitVec.and_append (w := 12) (v := 3), BitVec.and_append (w := 9) (v := 3),
    BitVec.and_append (w := 6) (v := 3)]
  simp only [Fields.and, hreg, optsToBits_optsOfBits, BitVec.ofBool_and_ofBool, BitVec.and_self]

/-- Keeping the fields of a format is taking the bits of those fields. -/
theorem Format.usedFields_eq_and (fmt : Format) (f : Fields) : fmt.usedFields f = f.and (fmt.usedFields .ones) := by
  have hop (x : BitVec 6) : x &&& 0x3F#6 = x := BitVec.and_allOnes
  have hlen (x : BitVec 5) : x &&& 0x1F#5 = x := BitVec.and_allOnes
  have hreg (x : RegIdx) : x &&& 7 = x := by revert x; decide
  have hreg0 (x : RegIdx) : x &&& 0 = 0 := by revert x; decide
  have hopts (o : SibOpts) : optsOfBits (optsToBits o &&& optsToBits ⟨true, true, true⟩) = o := by
    rcases o with ⟨_ | _, _ | _, _ | _⟩ <;> rfl
  have hopts0 (o : SibOpts) : optsOfBits (optsToBits o &&& optsToBits ⟨false, false, false⟩) = ⟨false, false, false⟩ := by
    rcases o with ⟨_ | _, _ | _, _ | _⟩ <;> rfl
  cases fmt <;> simp [usedFields, Fields.and, Fields.ones, hop, hlen, hreg, hreg0, hopts, hopts0]

/-- The opcode and the used fields of a word are what is left of it at the bits that the format's mask does not fix. -/
theorem wordOf_usedFields (fmt : Format) (cw : CmdWord) :
    wordOf (fmt.usedFields (fieldsOf cw)) = cw &&& (0xFC000000#32 ||| ~~~fmt.mask) := by
  have hbits : 0xFFFFFF00#32 &&& wordOf (fmt.usedFields .ones) = 0xFC000000#32 ||| ~~~fmt.mask := by
    cases fmt <;> decide
  rw [Format.usedFields_eq_and, wordOf_and, wordOf_fieldsOf, BitVec.and_assoc, hbits]

/-! ### Matching a row -/

theorem opField_toNat (cw : CmdWord) : (opField cw).toNat = cw.toNat / 2 ^ 26 := by
  have := cw.isLt
  rw [opField, BitVec.extractLsb'_toNat, Nat.shiftRight_eq_div_pow]
  omega

/-- A row's `match` is the opcode of the word at its place (30 R82). -/
theorem OpRow.word_eq {r : OpRow} {cw : CmdWord} (hop : r.op = opField cw) : r.word = cw &&& 0xFC000000#32 := by
  have hshift : cw >>> 26 <<< 26 = cw &&& 0xFC000000#32 := BitVec.shiftLeft_ushiftRight
  have hop' : r.op.setWidth 32 = cw >>> 26 := by
    apply BitVec.eq_of_toNat_eq
    rw [hop, BitVec.toNat_setWidth_of_le (by decide), opField_toNat, BitVec.toNat_ushiftRight, Nat.shiftRight_eq_div_pow]
  rw [OpRow.word, hop', hshift]

/-- A selection of bits leaves a word as it is when the word is 0 outside the selection. -/
theorem and_eq_self_iff {w : Nat} {x k : BitVec w} : x &&& k = x ↔ x &&& ~~~k = 0#w := by
  simp only [BitVec.eq_of_getElem_eq_iff, BitVec.getElem_and, BitVec.getElem_not, BitVec.getElem_zero]
  refine forall₂_congr fun p _ => ?_
  cases x[p] <;> cases k[p] <;> decide

/-- The bits of `m` add nothing to those of `h` in a word that is 0 at the bits of `m` outside `h`. -/
theorem and_or_eq_and_iff {w : Nat} {x m h : BitVec w} :
    x &&& (h ||| m) = x &&& h ↔ x &&& (m &&& ~~~h) = 0#w := by
  simp only [BitVec.eq_of_getElem_eq_iff, BitVec.getElem_and, BitVec.getElem_not, BitVec.getElem_or, BitVec.getElem_zero]
  refine forall₂_congr fun p _ => ?_
  cases x[p] <;> cases m[p] <;> cases h[p] <;> decide

theorem Format.opcode_or_mask (fmt : Format) : 0xFC000000#32 ||| fmt.mask = fmt.mask := by
  cases fmt <;> rfl

/-- Below the opcode, a mask fixes the bits outside the used fields of the row's opcode (30 R82). -/
theorem mask_below_opcode {r : OpRow} (hr : r ∈ opcodeMap) :
    r.fmt.mask &&& ~~~0xFC000000#32 = 0x03FFFFFF#32 &&& ~~~Machine.usedBits r.op.toNat := by
  revert r; decide

section

variable {r : OpRow} {cw : CmdWord} (hop : r.op = opField cw)
include hop

/-- A word matches the row of its opcode when it is 0 at the bits below the opcode that the mask fixes. -/
theorem match_iff_mask_below_opcode :
    cw &&& r.fmt.mask = r.word ↔ cw &&& (r.fmt.mask &&& ~~~0xFC000000#32) = 0#32 := by
  rw [OpRow.word_eq hop, ← and_or_eq_and_iff, r.fmt.opcode_or_mask]

/-- A word matches the row of its opcode when it is the word of its used fields. -/
theorem match_iff_wordOf_usedFields :
    cw &&& r.fmt.mask = r.word ↔ wordOf (r.fmt.usedFields (fieldsOf cw)) = cw := by
  rw [match_iff_mask_below_opcode hop, wordOf_usedFields, and_eq_self_iff, BitVec.not_or,
    BitVec.not_not, BitVec.and_comm (~~~_)]

/-- A word matches the row of its opcode when no bit outside the used fields is 1 (30 R91). -/
theorem match_iff_no_stray_bit (hr : r ∈ opcodeMap) :
    cw &&& r.fmt.mask = r.word ↔ cw &&& 0x03FFFFFF#32 &&& ~~~Machine.usedBits r.op.toNat = 0#32 := by
  rw [match_iff_mask_below_opcode hop, mask_below_opcode hr, BitVec.and_assoc]

end

/-! ### The round trips -/

/-- Settles O2: the row of the command's opcode builds it again, and its word holds the fields its format uses and no more. -/
theorem decodeOfEncodeReturnsTheCommand : Obligations.DecodeOfEncodeReturnsTheCommand := by
  intro i hwf
  have hfields : fieldsOf (encode i) = i.fields := fieldsOf_wordOf _
  have hopField : opField (encode i) = i.fields.op := congrArg Fields.op hfields
  obtain ⟨r, hrow, hbuild⟩ := i.exists_row
  obtain ⟨hr, hop⟩ := mem_opcodeMap_of_rowOf hrow
  have hused : r.fmt.usedFields i.fields = i.fields := by rw [← OpRow.fields_build hr hop, hbuild]
  have hmatch : encode i &&& r.fmt.mask = r.word := by
    rw [match_iff_wordOf_usedFields (hop.trans hopField.symm), hfields, hused, encode]
  exact decode_eq_ok_iff.mpr ⟨r, hopField ▸ hrow, hmatch, hfields ▸ hbuild, hwf⟩

/-- Settles O3: the command built from a matching word has the fields that the word is made of. -/
theorem encodeOfDecodeReturnsTheWord : Obligations.EncodeOfDecodeReturnsTheWord := by
  intro cw i hd
  obtain ⟨r, hrow, hmatch, rfl, hwf⟩ := decode_eq_ok_iff.mp hd
  obtain ⟨hr, hop⟩ := mem_opcodeMap_of_rowOf hrow
  refine ⟨?_, hwf⟩
  rw [encode, OpRow.fields_build hr hop]
  exact (match_iff_wordOf_usedFields hop).mp hmatch

/-- Settles O1: each word is run through the decoder. -/
theorem specExampleWordsDecode : Obligations.SpecExampleWordsDecode := by
  unfold Obligations.SpecExampleWordsDecode
  decide

/-! ### The illegal words -/

/-- The opcodes without a row are the reserved ones of 30 R93. -/
theorem rowOf_isNone (op : BitVec 6) : (rowOf op).isNone = Machine.reservedOp op.toNat := by
  revert op; decide

/-- Only `BLD` has terms that are not commands (30 R92). -/
theorem Instr.wellFormed_iff (i : Instr) : i.WellFormed ↔ ∀ bd len, i = .bld bd len → len.toNat ≤ 16 := by
  cases i with
  | bld bd len => exact decide_eq_true_iff.trans ⟨fun h _ _ e => by cases e; exact h, fun h => h bd len rfl⟩
  | _ => exact ⟨nofun, fun _ => rfl⟩

/-- A row builds a command from any fields, but for the row of `BLD` from a length over 16 (30 R92). -/
theorem OpRow.wellFormed_build_iff {r : OpRow} (hr : r ∈ opcodeMap) (f : Fields) :
    (r.build f).WellFormed ↔ ¬ (r.op.toNat = 0x02 ∧ 16 < f.len.toNat) := by
  revert r
  simp [opcodeMap, transferRows, bitwiseRows, netMaskRows, topologyRows, Instr.wellFormed_iff]

/-- The words that decode are those that none of 30 R91, R92 and R93 excludes. -/
theorem exists_decode_eq_ok_iff (cw : CmdWord) : (∃ i, decode cw = .ok i) ↔ ¬ Machine.IllegalWord cw := by
  have hres := rowOf_isNone (opField cw)
  have hlen : (fieldsOf cw).len.toNat = cw.toNat / 2 ^ 12 % 32 := by
    rw [← Nat.shiftRight_eq_div_pow]; exact BitVec.extractLsb'_toNat _ _ cw
  simp only [decode_eq_ok_iff, Machine.IllegalWord, ← opField_toNat]
  cases hrow : rowOf (opField cw) with
  | none => simp [← hres, hrow]
  | some r =>
    obtain ⟨hr, hop⟩ := mem_opcodeMap_of_rowOf hrow
    have hdefined : ¬ Machine.reservedOp r.op.toNat = true := by rw [hop, ← hres, hrow]; nofun
    simp [← hop, match_iff_no_stray_bit hop hr, OpRow.wellFormed_build_iff hr, hdefined, hlen]

/-- Settles O4: a word that does not decode raises `IllegalCommand`. -/
theorem illegalWordsRaiseIllegalCommand : Obligations.IllegalWordsRaiseIllegalCommand := by
  intro cw din rest s hin
  refine ⟨fun hill => ?_, (exists_decode_eq_ok_iff cw).mpr⟩
  cases hd : decode cw with
  | ok i => exact absurd hill ((exists_decode_eq_ok_iff cw).mp ⟨i, hd⟩)
  | error e => exact ⟨⟨e, rfl⟩, by rw [Machine.step_of_decode_error hin hd, Machine.State.raise_illegalCommand]⟩

end Sys2Proof
end

section
/-! Proofs: the bitwise buffer engine (40 R110 to R120), after how the statements about one command read: its word decodes to it,
an absent source fails it, and a success writes one register. -/

namespace Sys2Proof.Machine

variable {i : Instr} {s : State}

/-! ### The clauses of a statement about one command -/

/-- The word that 30 R81's formula gives a command's fields decodes to it; the option flags as the number of R85. -/
theorem decode_commandWord (i : Instr) (hwf : i.WellFormed) :
    decode (commandWord i.fields.op.toNat i.fields.rd i.fields.ra i.fields.rb i.fields.len.toNat
      (i.fields.opts.includeSelf.toNat + 2 * i.fields.opts.includeBroadcast.toNat + 4 * i.fields.opts.includeNetId.toNat)
      i.fields.v.toNat) = .ok i := by
  rw [← optsToBits_toNat, commandWord_eq_wordOf]
  exact decodeOfEncodeReturnsTheCommand i hwf

/-- What `InvalidArgument` leaves: its code and its sticky flag (60 R214). -/
theorem exec_of_invalidArgument (herr : errorOf i s = some .invalidArgument) :
    exec i s = .next { s with st := (s.st &&& 0xFC#8) ||| 0x11#8 } := by
  rw [exec_of_error herr, State.raise_invalidArgument]

theorem State.succeed_writeB (s : State) (d : RegIdx) (v : Option (List Byte)) :
    (s.writeB d v).succeed = .next { s with b := s.b.set d v, st := s.st &&& 0xFC#8 } :=
  State.succeed_eq _

theorem State.succeed_writeSR (s : State) (n : Nat) :
    (s.writeSR n).succeed = .next { s with sr := BitVec.ofNat 64 n, st := s.st &&& 0xFC#8 } :=
  State.succeed_eq _

/-! ### The combinations of two buffers -/

/-- The shape shared by `BAND`, `BOR` and `BXOR` with both sources present (40 R111). -/
theorem State.combineB_present {f : Byte → Byte → Byte} {bd ba bb : RegIdx} {a b : List Byte}
    (ha : s.readB ba = some a) (hb : s.readB bb = some b) :
    ∃ r : List Byte, s.combineB f bd ba bb = .next { s with b := s.b.set bd (some r), st := s.st &&& 0xFC#8 } ∧
      r.length = max a.length b.length ∧
      ∀ p, p < max a.length b.length → r[p]? = some (f (a.getD p 0) (b.getD p 0)) := by
  refine ⟨combine f a b, ?_, combine_length f a b, combine_getElem? f a b⟩
  rw [State.combineB, State.needB_some ha, State.needB_some hb, State.succeed_writeB]

/-- Settles O29: `BAND` is `State.combineB` of `&&&`. -/
theorem bandCombinesPaddedBuffers : Obligations.BandCombinesPaddedBuffers := fun bd ba bb =>
  ⟨decode_commandWord (.band bd ba bb) rfl, fun _ h => exec_of_invalidArgument (if_pos h),
    fun _ _ _ => State.combineB_present⟩

/-- Settles O30: `BOR` is `State.combineB` of `|||`. -/
theorem borCombinesPaddedBuffers : Obligations.BorCombinesPaddedBuffers := fun bd ba bb =>
  ⟨decode_commandWord (.bor bd ba bb) rfl, fun _ h => exec_of_invalidArgument (if_pos h),
    fun _ _ _ => State.combineB_present⟩

/-- Settles O31: `BXOR` is `State.combineB` of `^^^`. -/
theorem bxorCombinesPaddedBuffers : Obligations.BxorCombinesPaddedBuffers := fun bd ba bb =>
  ⟨decode_commandWord (.bxor bd ba bb) rfl, fun _ h => exec_of_invalidArgument (if_pos h),
    fun _ _ _ => State.combineB_present⟩

/-! ### The complement -/

theorem exec_bnot_present {bd ba : RegIdx} {a : List Byte} (ha : s.readB ba = some a) :
    exec (.bnot bd ba) s =
      .next { s with b := s.b.set bd (some (a.map fun x => ~~~x)), st := s.st &&& 0xFC#8 } := by
  rw [exec, execBnot, State.needB_some ha, State.succeed_writeB]

/-- Settles O32: the buffer written is the source mapped byte by byte. -/
theorem bnotComplementsEachByte : Obligations.BnotComplementsEachByte := by
  refine fun bd ba => ⟨decode_commandWord (.bnot bd ba) rfl, fun s h => exec_of_invalidArgument (if_pos h),
    fun s a ha => ⟨_, exec_bnot_present ha, List.length_map _, fun p hp => ?_⟩⟩
  simp [hp]

/-! ### The run lengths -/

theorem exec_cntl_present {ba : RegIdx} {v : Bool} {a : List Byte} (ha : s.readB ba = some a) :
    exec (.cntl ba v) s = .next { s with sr := BitVec.ofNat 64 (countLeading a v), st := s.st &&& 0xFC#8 } := by
  rw [exec, execCntl, State.needB_some ha, State.succeed_writeSR]

theorem exec_cntt_present {ba : RegIdx} {v : Bool} {a : List Byte} (ha : s.readB ba = some a) :
    exec (.cntt ba v) s = .next { s with sr := BitVec.ofNat 64 (countTrailing a v), st := s.st &&& 0xFC#8 } := by
  rw [exec, execCntt, State.needB_some ha, State.succeed_writeSR]

/-- Settles O33: `SR` holds `count_leading`, the largest run from the start of the stream. -/
theorem cntlCountsTheLeadingRun : Obligations.CntlCountsTheLeadingRun := by
  refine fun ba v => ⟨decode_commandWord (.cntl ba v) rfl, fun s h => exec_of_invalidArgument (if_pos h),
    fun s a ha => ?_⟩
  obtain ⟨hle, hrun, hstop⟩ := countLeading_spec a v
  exact ⟨_, exec_cntl_present ha, hle, hrun, fun h => Bool.eq_not.mp (hstop h)⟩

/-- Settles O34: `SR` holds `count_trailing`, the largest run up to the end of the stream. -/
theorem cnttCountsTheTrailingRun : Obligations.CnttCountsTheTrailingRun := by
  refine fun ba v => ⟨decode_commandWord (.cntt ba v) rfl, fun s h => exec_of_invalidArgument (if_pos h),
    fun s a ha => ?_⟩
  obtain ⟨hle, hrun, hstop⟩ := countTrailing_spec a v
  exact ⟨_, exec_cntt_present ha, hle, hrun, fun h => Bool.eq_not.mp (hstop h)⟩

/-! ### The prefix patterns -/

theorem exec_bvalid_present {ba : RegIdx} {a : List Byte} (ha : s.readB ba = some a) :
    exec (.bvalid ba) s =
      .next { s with sr := BitVec.ofNat 64 (validMask a).toNat, st := s.st &&& 0xFC#8 } := by
  rw [exec, execBvalid, State.needB_some ha, State.succeed_writeSR]

/-- A truth value as the scalar result (10 R31). -/
theorem ofNat_toNat_bool (v : Bool) : BitVec.ofNat 64 v.toNat = if v = true then 1 else 0 := by
  cases v <;> rfl

/-- Settles O35: the two runs make up the stream exactly when it is 1s followed by 0s. -/
theorem bvalidTellsPrefixPatterns : Obligations.BvalidTellsPrefixPatterns := by
  refine fun ba => ⟨decode_commandWord (.bvalid ba) rfl, fun s h => exec_of_invalidArgument (if_pos h),
    fun s a ha => ⟨_, exec_bvalid_present ha, ?formula, ?pattern⟩⟩
  case formula =>
    rw [ofNat_toNat_bool, validMask]
    simp only [beq_iff_eq]
  case pattern =>
    rw [ofNat_toNat_bool, ← validMask_iff]
    cases validMask a <;> decide

end Sys2Proof.Machine
end

section
/-! Proofs: the network-mask unit (41 R130 to R141). The clauses on the word and on a failure are as for the bitwise engine;
a success writes one mask register, the buffer of `MTB`, or `SR`. -/

namespace Sys2Proof.Machine

variable {s : State}

theorem State.succeed_writeM (s : State) (d : RegIdx) (w : Option Mask) :
    (s.writeM d w).succeed = .next { s with m := s.m.set d w, st := s.st &&& 0xFC#8 } :=
  State.succeed_eq _

/-! ### A mask from its length -/

theorem exec_mfc_inRange {md : RegIdx} (h0 : 0 ≤ s.scalarOperand) (h32 : s.scalarOperand ≤ 32) :
    exec (.mfc md) s =
      .next { s with m := s.m.set md (some (cidrmask s.scalarOperand.toNat)), st := s.st &&& 0xFC#8 } := by
  rw [exec, execMfc, if_neg (by omega), State.succeed_writeM]

/-- Settles O39: the mask written is `cidrmask n`, whose bits are known. -/
theorem mfcMakesTheMaskOfALength : Obligations.MfcMakesTheMaskOfALength := by
  refine fun md => ⟨decode_commandWord (.mfc md) rfl, ?_⟩
  rintro s _ rfl
  refine ⟨fun h => exec_of_invalidArgument (if_neg (by omega)),
    fun h0 h32 => ⟨_, exec_mfc_inRange h0 h32, fun p hp => ?_⟩⟩
  rw [State.scalarOperand, cidrmask_getLsbD _ _ (by omega) (by omega)]
  exact decide_eq_decide.mpr (by omega)

/-! ### A mask from a buffer -/

/-- A present buffer that `MFB` refuses (41 R133). -/
theorem errorOf_mfb_present {md ba : RegIdx} {a : List Byte} (ha : s.readB ba = some a)
    (hbad : ¬ (a.length = 4 ∧ OnesThenZeros a)) : errorOf (.mfb md ba) s = some .invalidArgument := by
  rw [← leading_trailing_eq_iff] at hbad
  simp only [errorOf, ha, if_neg hbad]

theorem exec_mfb_valid {md ba : RegIdx} {b0 b1 b2 b3 : Byte} (hb : s.readB ba = some [b0, b1, b2, b3])
    (hv : OnesThenZeros [b0, b1, b2, b3]) :
    exec (.mfb md ba) s =
      .next { s with m := s.m.set md (some (addrOf b0 b1 b2 b3)), st := s.st &&& 0xFC#8 } := by
  have hlen : [b0, b1, b2, b3].length = Config.maskBytes := rfl
  rw [exec, execMfb, State.needB_some hb, if_neg (not_not.mpr hlen), if_pos ((validMask_iff _).mpr hv), u32_eq_addrOf,
    State.succeed_writeM]

/-- Settles O40: each of the three failing forms is an error of the table; the other form runs through every check. -/
theorem mfbTakesValidFourByteBuffers : Obligations.MfbTakesValidFourByteBuffers := by
  refine fun md ba => ⟨decode_commandWord (.mfb md ba) rfl, fun s h => exec_of_invalidArgument ?_,
    fun s _ _ _ _ => exec_mfb_valid⟩
  obtain h | ⟨a, ha, hlen⟩ | ⟨a, ha, hpat⟩ := h
  · simp only [errorOf, h]
  · exact errorOf_mfb_present ha fun hc => hlen hc.1
  · exact errorOf_mfb_present ha fun hc => hpat hc.2

/-! ### The empty mask -/

/-- Settles O41: `MEMP` has no operand to check. -/
theorem mempMakesTheEmptyMask : Obligations.MempMakesTheEmptyMask := fun md =>
  ⟨decode_commandWord (.memp md) rfl, fun s => s.succeed_writeM md _⟩

/-! ### The length and the bytes of a mask -/

/-- For a prefix mask the leading 1s and the trailing 0s make up the 32 bits (41 R135). -/
theorem IsPrefixMask.cidr_eq_sub_countTrailing {m : Mask} (h : IsPrefixMask m) :
    cidr m = 32 - countTrailing (bytes4 m) false := by
  have hsum := (leading_trailing_eq_iff _).mpr ((onesThenZeros_bytes4 m).mpr h)
  rw [← cidr_eq_countLeading, bytes4_length] at hsum
  omega

theorem exec_mcidr_present {ma : RegIdx} {m : Mask} (hm : s.readM ma = some m) :
    exec (.mcidr ma) s = .next { s with sr := BitVec.ofNat 64 (cidr m), st := s.st &&& 0xFC#8 } := by
  rw [exec, execMcidr, State.needM_some hm, State.succeed_writeSR]

/-- Settles O42: `SR` holds `cidr`, the largest run of 1s from bit 31 down. -/
theorem mcidrCountsTheLeadingOnes : Obligations.McidrCountsTheLeadingOnes := by
  refine fun ma => ⟨decode_commandWord (.mcidr ma) rfl, fun s h => exec_of_invalidArgument (if_pos h),
    fun s m hm => ?_⟩
  obtain ⟨hle, hrun, hstop⟩ := cidr_spec m
  exact ⟨_, exec_mcidr_present hm, hle, hrun, hstop, IsPrefixMask.cidr_eq_sub_countTrailing⟩

theorem exec_mtb_present {bd ma : RegIdx} {m : Mask} (hm : s.readM ma = some m) :
    exec (.mtb bd ma) s = .next { s with b := s.b.set bd (some (bytes4 m)), st := s.st &&& 0xFC#8 } := by
  rw [exec, execMtb, State.needM_some hm, State.succeed_writeB]

/-- Settles O43: the buffer written is `bytes4` of the mask, whose value is the mask again. -/
theorem mtbGivesTheMaskBytes : Obligations.MtbGivesTheMaskBytes := by
  refine fun bd ma => ⟨decode_commandWord (.mtb bd ma) rfl, fun s h => exec_of_invalidArgument (if_pos h),
    fun s m hm => ?_⟩
  obtain ⟨b0, b1, b2, b3, hval, hbytes⟩ := exists_addrOf m
  exact ⟨b0, b1, b2, b3, hval, hbytes ▸ exec_mtb_present hm⟩

/-! ### Intersection and union -/

theorem IsPrefixMask.and_eq {a b : Mask} (ha : IsPrefixMask a) (hb : IsPrefixMask b) :
    a &&& b = cidrmask (min (cidr a) (cidr b)) := by
  rw [← cidrmask_and _ _ (cidr_spec a).1 (cidr_spec b).1, ha.eq, hb.eq]

theorem IsPrefixMask.or_eq {a b : Mask} (ha : IsPrefixMask a) (hb : IsPrefixMask b) :
    a ||| b = cidrmask (max (cidr a) (cidr b)) := by
  rw [← cidrmask_or _ _ (cidr_spec a).1 (cidr_spec b).1, ha.eq, hb.eq]

theorem exec_mand_present {md ma mb : RegIdx} {a b : Mask} (ha : s.readM ma = some a) (hb : s.readM mb = some b) :
    exec (.mand md ma mb) s = .next { s with m := s.m.set md (some (a &&& b)), st := s.st &&& 0xFC#8 } := by
  rw [exec, execMand, State.needM_some ha, State.needM_some hb, State.succeed_writeM]

/-- Settles O44: the mask written is `&&&` of the sources. -/
theorem mandIntersectsMasks : Obligations.MandIntersectsMasks := fun md ma mb =>
  ⟨decode_commandWord (.mand md ma mb) rfl, fun _ h => exec_of_invalidArgument (if_pos h),
    fun _ _ _ ha hb => ⟨_, exec_mand_present ha hb, fun _ _ => BitVec.getLsbD_and, IsPrefixMask.and_eq⟩⟩

/-- The absent mask is the identity on the right too (41 R138). -/
theorem orMasks_none_right (w : Option Mask) : orMasks w none = w := by
  cases w <;> rfl

/-- Settles O45: the register written is `orMasks` of the sources. -/
theorem morUnitesMasksWithAbsentIdentity : Obligations.MorUnitesMasksWithAbsentIdentity := by
  refine fun md ma mb => ⟨decode_commandWord (.mor md ma mb) rfl,
    fun s => ⟨orMasks (s.readM ma) (s.readM mb), s.succeed_writeM md _, fun ha => ?left, fun hb => ?right,
      fun a b ha hb => ⟨a ||| b, ?both, fun _ _ => BitVec.getLsbD_or, IsPrefixMask.or_eq⟩⟩⟩
  case left => rw [ha]; rfl
  case right => rw [hb, orMasks_none_right]
  case both => rw [ha, hb]; rfl

/-! ### A longer and a shorter prefix -/

/-- The shape shared by `MEXT` and `MABR`: the mask written is that of the clamped length (41 R139, R140). -/
theorem State.succeed_writeM_clampMask (s : State) (md : RegIdx) (t : Int) : ∃ k : Nat,
    (k : Int) = max (min t 32) 0 ∧
      (s.writeM md (some (clampMask t))).succeed =
        .next { s with m := s.m.set md (some (cidrmask k)), st := s.st &&& 0xFC#8 } :=
  ⟨_, Int.toNat_of_nonneg (le_max_right _ _), s.succeed_writeM md _⟩

/-- Settles O46: the clamped length is that of the sum. -/
theorem mextLengthensThePrefixClamped : Obligations.MextLengthensThePrefixClamped := by
  refine fun md ma => ⟨decode_commandWord (.mext md ma) rfl, fun s h => exec_of_invalidArgument (if_pos h),
    fun s m hm => ?_⟩
  rw [exec, execMext, State.needM_some hm]
  exact s.succeed_writeM_clampMask md _

/-- Settles O47: the clamped length is that of the difference. -/
theorem mabrShortensThePrefixClamped : Obligations.MabrShortensThePrefixClamped := by
  refine fun md ma => ⟨decode_commandWord (.mabr md ma) rfl, fun s h => exec_of_invalidArgument (if_pos h),
    fun s m hm => ?_⟩
  rw [exec, execMabr, State.needM_some hm]
  exact s.succeed_writeM_clampMask md _

/-! ### Comparison -/

/-- Prefix masks are equal exactly when their lengths are (41 R141). -/
theorem IsPrefixMask.eq_iff_cidr_eq {a b : Mask} (ha : IsPrefixMask a) (hb : IsPrefixMask b) :
    a = b ↔ cidr a = cidr b :=
  ⟨congrArg cidr, fun h => by rw [← ha.eq, h, hb.eq]⟩

theorem exec_meq_present {ma mb : RegIdx} {a b : Mask} (ha : s.readM ma = some a) (hb : s.readM mb = some b) :
    exec (.meq ma mb) s = .next { s with sr := if a = b then 1 else 0, st := s.st &&& 0xFC#8 } := by
  rw [exec, execMeq, State.needM_some ha, State.needM_some hb, State.succeed_writeSR, ofNat_toNat_bool]
  simp only [beq_iff_eq]

/-- Settles O48: `SR` is the truth value of `a = b`, which the bits decide, and for prefix masks the lengths. -/
theorem meqComparesMasks : Obligations.MeqComparesMasks := by
  refine fun ma mb => ⟨decode_commandWord (.meq ma mb) rfl, fun s h => exec_of_invalidArgument (if_pos h),
    fun s a b ha hb => ⟨_, exec_meq_present ha hb, ite_eq_or_eq _ _ _, ?bits, fun hpa hpb => ?lengths⟩⟩
  all_goals rw [show (if a = b then 1 else 0 : BitVec 64) = 1 ↔ a = b by simp]
  case bits => exact ⟨fun h _ _ => h ▸ rfl, BitVec.eq_of_getLsbD_eq⟩
  case lengths => exact hpa.eq_iff_cidr_eq hpb

end Sys2Proof.Machine
end

section
/-! Proofs: the subnet-topology unit (42 R160 to R169). The four commands on a mask and an address share their checks; what
they compute is bitwise, or the closed-form count, which is what three removals leave of the list of the subnet's addresses. -/

namespace Sys2Proof.Machine

variable {i : Instr} {s : State}

/-! ### The operand checks of the four commands -/

section

variable {ma bb : RegIdx} (herr : errorOf i s = errorOf (.npfx 0 ma bb) s)
include herr

/-- The mask or the address absent (42 R160). -/
theorem exec_of_subnet_absent (h : s.readM ma = none ∨ s.readB bb = none) :
    exec i s = .next { s with st := (s.st &&& 0xFC#8) ||| 0x11#8 } :=
  exec_of_invalidArgument (herr.trans (by rcases h with h | h <;> simp [errorOf, h]))

/-- An address that is not 4 bytes long (42 R160). -/
theorem exec_of_subnet_notIpv4 {m : Mask} {a : List Byte} (hm : s.readM ma = some m) (ha : s.readB bb = some a)
    (h4 : a.length ≠ 4) : exec i s = .next { s with st := (s.st &&& 0xFC#8) ||| 0x22#8 } := by
  rw [exec_of_error (k := .unsupported) (herr.trans (by simp [errorOf, hm, ha, h4])), State.raise_unsupported]

end

/-! ### Bitwise operations on four bytes -/

theorem bytes4_and (u v : BitVec 32) : bytes4 (u &&& v) = List.zipWith (fun x y => x &&& y) (bytes4 u) (bytes4 v) := by
  simp [bytes4, BitVec.extractLsb'_and]

theorem bytes4_or (u v : BitVec 32) : bytes4 (u ||| v) = List.zipWith (fun x y => x ||| y) (bytes4 u) (bytes4 v) := by
  simp [bytes4, BitVec.extractLsb'_or]

theorem bytes4_not (u : BitVec 32) : bytes4 (~~~u) = (bytes4 u).map fun x => ~~~x := by
  have hbyte (lo : Nat) (hlo : lo + 8 ≤ 32) : (~~~u).extractLsb' lo 8 = ~~~u.extractLsb' lo 8 := by
    ext p hp
    simp [show lo + p < 32 by omega]
  simp [bytes4, hbyte]

/-- Buffers of one length are combined without padding (40 R111). -/
theorem combine_of_length_eq (f : Byte → Byte → Byte) {a b : List Byte} (h : a.length = b.length) :
    combine f a b = List.zipWith f a b := by
  simp [combine, pad, h]

/-! ### The network prefix and the host identifier -/

section

variable {bd ma bb : RegIdx} {m : Mask} {a : List Byte} (hm : s.readM ma = some m) (ha : s.readB bb = some a)
  (h4 : a.length = 4)
include hm ha h4

theorem exec_npfx_ipv4 : exec (.npfx bd ma bb) s = (s.writeB bd (some (bytes4 (netOf m (u32 a))))).succeed := by
  rw [exec, execNpfx, State.needSubnet_ipv4 hm ha h4]

theorem exec_hostid_ipv4 : exec (.hostid bd ma bb) s = (s.writeB bd (some (bytes4 (hostIdOf m (u32 a))))).succeed := by
  rw [exec, execHostid, State.needSubnet_ipv4 hm ha h4]

theorem exec_scnt_ipv4 {o : SibOpts} : exec (.scnt ma bb o) s = (s.writeSR (siblingCount m (u32 a) o)).succeed := by
  rw [exec, execScnt, State.needSubnet_ipv4 hm ha h4]

theorem exec_sstart_ipv4 {o : SibOpts} :
    exec (.sstart ma bb o) s =
      .next { s with it := some (Iter.start m (u32 a) o), st := (s.st &&& 0xF0#8) ||| 0x08#8 } := by
  rw [exec, execSstart, State.needSubnet_ipv4 hm ha h4, State.succeed, stOk_start]

end

/-- Settles O50: the bytes of `mask & address` are those of the mask and of the address, one by one. -/
theorem npfxExtractsTheNetworkPrefix : Obligations.NpfxExtractsTheNetworkPrefix := by
  refine fun bd ma bb => ⟨decode_commandWord (.npfx bd ma bb) rfl, fun _ => exec_of_subnet_absent rfl,
    fun _ _ _ hm ha h4 => exec_of_subnet_notIpv4 rfl hm ha h4, fun s m0 m1 m2 m3 a0 a1 a2 a3 hm ha => ?_⟩
  have hbytes : bytes4 (netOf (addrOf m0 m1 m2 m3) (u32 [a0, a1, a2, a3])) =
      [m0 &&& a0, m1 &&& a1, m2 &&& a2, m3 &&& a3] := by
    rw [netOf, bytes4_and, bytes4_u32 rfl, bytes4_addrOf]; rfl
  rw [exec_npfx_ipv4 hm ha rfl, hbytes, State.succeed_writeB]

/-- Settles O51: as for the prefix, with the bytes of the mask complemented. -/
theorem hostidExtractsTheHostIdentifier : Obligations.HostidExtractsTheHostIdentifier := by
  refine fun bd ma bb => ⟨decode_commandWord (.hostid bd ma bb) rfl, fun _ => exec_of_subnet_absent rfl,
    fun _ _ _ hm ha h4 => exec_of_subnet_notIpv4 rfl hm ha h4, fun s m0 m1 m2 m3 a0 a1 a2 a3 hm ha => ?_⟩
  have hbytes : bytes4 (hostIdOf (addrOf m0 m1 m2 m3) (u32 [a0, a1, a2, a3])) =
      [~~~m0 &&& a0, ~~~m1 &&& a1, ~~~m2 &&& a2, ~~~m3 &&& a3] := by
    rw [hostIdOf, bytes4_and, bytes4_not, bytes4_u32 rfl, bytes4_addrOf]; rfl
  rw [exec_hostid_ipv4 hm ha rfl, hbytes, State.succeed_writeB]

/-! ### Prefix and host identifier together -/

theorem netOf_or_hostIdOf (m : Mask) (a : Addr) : netOf m a ||| hostIdOf m a = a := by
  rw [netOf, hostIdOf]
  ext p hp
  cases h : m[p] <;> simp [h]

theorem netOf_and_hostIdOf (m : Mask) (a : Addr) : netOf m a &&& hostIdOf m a = 0#32 := by
  rw [netOf, hostIdOf]
  ext p hp
  cases h : m[p] <;> simp [h]

/-- What the registers read after a command that ends in a write of one buffer register. -/
theorem State.succeed_writeB_reads (s : State) (d : RegIdx) (v : Option (List Byte)) :
    ∃ t, (s.writeB d v).succeed = .next t ∧ t.readB d = v ∧ (∀ j, d ≠ j → t.readB j = s.readB j) ∧
      ∀ j, t.readM j = s.readM j :=
  ⟨_, rfl, s.readB_writeB_self d v, fun _ => State.readB_writeB_of_ne, fun _ => rfl⟩

/-- The shape shared by `BAND` and `BOR` on sources of 4 bytes: the destination and the other buffer registers. -/
theorem State.combineB_bytes4 {f : Byte → Byte → Byte} {bd ba bb : RegIdx} {u v : BitVec 32}
    (hu : s.readB ba = some (bytes4 u)) (hv : s.readB bb = some (bytes4 v)) :
    ∃ t, s.combineB f bd ba bb = .next t ∧ t.readB bd = some (List.zipWith f (bytes4 u) (bytes4 v)) ∧
      ∀ j, bd ≠ j → t.readB j = s.readB j := by
  obtain ⟨t, ht, hd, hother, -⟩ := s.succeed_writeB_reads bd (some (combine f (bytes4 u) (bytes4 v)))
  rw [combine_of_length_eq f (by simp)] at hd
  exact ⟨t, by rw [State.combineB, State.needB_some hu, State.needB_some hv, ht], hd, hother⟩

/-- Settles O52: the four commands are run in turn; the bits of prefix and host identifier are disjoint and make up the
address. -/
theorem prefixAndHostPartitionTheAddress : Obligations.PrefixAndHostPartitionTheAddress := by
  intro bp bq bx bz ma bb s m a hqp hpb hxp hxq hm ha h4
  obtain ⟨t, ht, hp, htB, htM⟩ := s.succeed_writeB_reads bp (some (bytes4 (netOf m (u32 a))))
  obtain ⟨u, hu, hq, huB, -⟩ := t.succeed_writeB_reads bq (some (bytes4 (hostIdOf m (u32 a))))
  have hp' := (huB bp hqp).trans hp
  obtain ⟨v, hv, hx, hvB⟩ := State.combineB_bytes4 (f := fun x y => x ||| y) (bd := bx) hp' hq
  obtain ⟨w, hw, hz, -⟩ := State.combineB_bytes4 (f := fun x y => x &&& y) (bd := bz)
    ((hvB bp hxp).trans hp') ((hvB bq hxq).trans hq)
  refine ⟨t, u, v, w, (exec_npfx_ipv4 hm ha h4).trans ht,
    (exec_hostid_ipv4 ((htM ma).trans hm) ((htB bb hpb).trans ha) h4).trans hu, hv, ?_, hw, ?_⟩
  · rw [hx, ← bytes4_or, netOf_or_hostIdOf, bytes4_u32 h4]
  · rw [hz, ← bytes4_and, netOf_and_hostIdOf]; rfl

/-! ### The closed-form count -/

theorem siblingCount_of_cidr_eq {m : Mask} (h : cidr m = 32) (self : Addr) (o : SibOpts) :
    siblingCount m self o = o.includeSelf.toNat := by
  simp [siblingCount, hostBits, h]

/-- A mask of CIDR length 31 is the prefix mask of that length: its one other bit is 0. -/
theorem eq_cidrmask_of_cidr_eq {m : Mask} (h : cidr m = 31) : m = cidrmask 31 := by
  obtain ⟨-, hones, hzero⟩ := cidr_spec m
  refine BitVec.eq_of_getLsbD_eq fun p hp => ?_
  rw [cidrmask_getLsbD 31 p (by omega) hp]
  rcases Nat.eq_zero_or_pos p with rfl | hp0
  · simpa [h] using hzero (by omega)
  · have hone := hones (31 - p) (by omega)
    rw [Nat.sub_sub_self (by omega)] at hone
    simp [hone, show 1 ≤ p from hp0]

/-- A mask of CIDR length 31 leaves two addresses: the network identifier and the broadcast address. -/
theorem eq_net_or_bcast_of_cidr_eq {m : Mask} (h : cidr m = 31) (self : Addr) :
    self = netOf m self ∨ self = bcastOf m self := by
  rw [eq_cidrmask_of_cidr_eq h]
  have hge := netOf_le 31 (by omega) self
  have hle := le_bcastOf 31 (by omega) self
  have hb := bcastOf_toNat 31 (by omega) self
  simp only [BitVec.toNat_eq]
  omega

/-- How many addresses of a subnet of two or more are no siblings: `e_net + e_bcast + e_self` of 42 R165, where `e_self`
counts only an address that is not excluded already. -/
def excludedCount (m : Mask) (self : Addr) (o : SibOpts) : Nat :=
  (if o.includeNetId then 0 else 1) + (if o.includeBroadcast then 0 else 1) +
    (if o.includeSelf ∨ (self = netOf m self ∧ ¬ o.includeNetId) ∨ (self = bcastOf m self ∧ ¬ o.includeBroadcast)
      then 0 else 1)

section

variable {m : Mask} (h : cidr m ≠ 32) (self : Addr) (o : SibOpts)
include h

theorem siblingCount_of_cidr_ne :
    siblingCount m self o = 2 ^ (32 - cidr m) - (!o.includeNetId).toNat - (!o.includeBroadcast).toNat -
      (!o.includeSelf && !(self == netOf m self && !o.includeNetId) &&
        !(self == bcastOf m self && !o.includeBroadcast)).toNat := by
  have hle := (cidr_spec m).1
  rw [siblingCount, hostBits, if_neg (by omega)]

theorem siblingCount_eq_sub : siblingCount m self o = 2 ^ (32 - cidr m) - excludedCount m self o := by
  have hnot (v : Bool) : (!v).toNat = if v then 0 else 1 := by cases v <;> rfl
  simp only [siblingCount_of_cidr_ne h, ← Bool.not_or, hnot, Nat.sub_sub]
  congr 1
  simp [excludedCount, or_assoc]

/-- The subnet has room for what is subtracted: with two addresses, `self` is the one or the other of them. -/
theorem excludedCount_le : excludedCount m self o ≤ 2 ^ (32 - cidr m) := by
  have hle := (cidr_spec m).1
  unfold excludedCount
  by_cases h31 : cidr m = 31
  · have hself := eq_net_or_bcast_of_cidr_eq h31 self
    rw [h31]
    split_ifs <;> grind
  · have hbig : 2 ^ 2 ≤ 2 ^ (32 - cidr m) := Nat.pow_le_pow_right (by omega) (by omega)
    split_ifs <;> omega

/-- The closed form of 42 R165 as an exact integer: its subtractions never go below 0. -/
theorem siblingCount_eq_closedForm :
    (siblingCount m self o : Int) = 2 ^ (32 - cidr m) - (if o.includeNetId then 0 else 1) -
      (if o.includeBroadcast then 0 else 1) -
      (if o.includeSelf ∨ (self = netOf m self ∧ ¬ o.includeNetId) ∨ (self = bcastOf m self ∧ ¬ o.includeBroadcast)
        then 0 else 1) := by
  rw [siblingCount_eq_sub h, Nat.cast_sub (excludedCount_le h self o), excludedCount]
  push_cast
  ring

end

/-- Settles O53: the count written is `siblingCount`, whose two cases are those of the rule. -/
theorem scntGivesTheClosedForm : Obligations.ScntGivesTheClosedForm := by
  refine fun ma bb o => ⟨decode_commandWord (.scnt ma bb o) rfl, fun _ => exec_of_subnet_absent rfl,
    fun _ _ _ hm ha h4 => exec_of_subnet_notIpv4 rfl hm ha h4, ?_⟩
  rintro s m _ _ _ a0 a1 a2 a3 hm ha rfl rfl rfl
  refine ⟨siblingCount m (addrOf a0 a1 a2 a3) o, ?_, fun h => ?_, fun h => siblingCount_eq_closedForm h _ o⟩
  · rw [exec_scnt_ipv4 hm ha rfl, u32_eq_addrOf, State.succeed_writeSR]
  · rw [siblingCount_of_cidr_eq h, Bool.toNat, Bool.cond_eq_ite]

/-! ### The siblings counted -/

/-- The addresses from `net` to `bcast`, in ascending order. -/
def subnetAddrs (net bcast : Addr) : List Addr :=
  (List.range (bcast.toNat - net.toNat + 1)).map fun i => BitVec.ofNat 32 (net.toNat + i)

theorem siblings_eq_filter (m : Mask) (self : Addr) (o : SibOpts) :
    siblings m self o = (subnetAddrs (netOf m self) (bcastOf m self)).filter
      fun x => !siblingExcluded (netOf m self) (bcastOf m self) self o x := rfl

theorem subnetAddrs_length (net bcast : Addr) : (subnetAddrs net bcast).length = bcast.toNat - net.toNat + 1 := by
  simp [subnetAddrs]

section

variable {net bcast : Addr} (h : net ≤ bcast)
include h

theorem mem_subnetAddrs {x : Addr} : x ∈ subnetAddrs net bcast ↔ net ≤ x ∧ x ≤ bcast := by
  have hb := bcast.isLt
  simp only [subnetAddrs, List.mem_map, List.mem_range, BitVec.le_def] at h ⊢
  constructor
  · rintro ⟨i, hi, rfl⟩
    rw [BitVec.toNat_ofNat, Nat.mod_eq_of_lt (by omega)]
    omega
  · rintro ⟨hnet, hbcast⟩
    exact ⟨x.toNat - net.toNat, by omega, by rw [Nat.add_sub_of_le hnet, BitVec.ofNat_toNat, BitVec.setWidth_eq]⟩

theorem pairwise_lt_subnetAddrs : (subnetAddrs net bcast).Pairwise (fun x y => x < y) := by
  have hb := bcast.isLt
  rw [BitVec.le_def] at h
  rw [subnetAddrs, List.pairwise_map]
  refine List.pairwise_lt_range.imp_of_mem fun {i j} hi hj hij => ?_
  rw [List.mem_range] at hi hj
  rw [BitVec.lt_def, BitVec.toNat_ofNat, BitVec.toNat_ofNat, Nat.mod_eq_of_lt (by omega), Nat.mod_eq_of_lt (by omega)]
  omega

theorem nodup_subnetAddrs : (subnetAddrs net bcast).Nodup :=
  (pairwise_lt_subnetAddrs h).imp BitVec.ne_of_lt

end

/-- `l` without the address `a`, where the flag `e` excludes it. -/
def removeIf (e : Bool) (a : Addr) (l : List Addr) : List Addr := l.filter fun x => !(x == a && e)

theorem mem_removeIf {e : Bool} {a x : Addr} {l : List Addr} :
    x ∈ removeIf e a l ↔ x ∈ l ∧ !(x == a && e) := List.mem_filter

theorem removeIf_nodup {l : List Addr} (hl : l.Nodup) (e : Bool) (a : Addr) : (removeIf e a l).Nodup := hl.filter _

/-- A removal takes one address away, if it is there and the flag excludes it. -/
theorem length_removeIf {l : List Addr} (hl : l.Nodup) (e : Bool) (a : Addr) :
    (removeIf e a l).length = l.length - (decide (a ∈ l) && e).toNat := by
  cases e with
  | false => simp [removeIf]
  | true =>
    have herase : removeIf true a l = l.erase a := by
      rw [hl.erase_eq_filter]
      simp [removeIf, bne]
    rw [herase, List.length_erase]
    split <;> simp [*]

/-- The siblings in a subnet of two or more addresses are what three removals leave (42 R164). -/
theorem siblings_eq_removeIf {m : Mask} {self : Addr} (h : netOf m self ≠ bcastOf m self) (o : SibOpts) :
    siblings m self o = removeIf (!o.includeSelf) self (removeIf (!o.includeBroadcast) (bcastOf m self)
      (removeIf (!o.includeNetId) (netOf m self) (subnetAddrs (netOf m self) (bcastOf m self)))) := by
  rw [siblings_eq_filter]
  simp only [removeIf, List.filter_filter, siblingExcluded, if_neg h]
  congr 1
  funext x
  simp [Bool.beq_eq_decide_eq, Bool.and_comm]

section

variable {m : Mask} (hm : IsPrefixMask m) (self : Addr) (o : SibOpts)
include hm

theorem IsPrefixMask.bcastOf_toNat : (bcastOf m self).toNat = (netOf m self).toNat + (2 ^ (32 - cidr m) - 1) := by
  conv_lhs => rw [← hm.eq]
  rw [Machine.bcastOf_toNat _ (cidr_spec m).1, hm.eq]

theorem IsPrefixMask.netOf_le : netOf m self ≤ self := by
  rw [← hm.eq]
  exact Machine.netOf_le _ (cidr_spec m).1 self

theorem IsPrefixMask.le_bcastOf : self ≤ bcastOf m self := by
  rw [← hm.eq]
  exact Machine.le_bcastOf _ (cidr_spec m).1 self

theorem IsPrefixMask.netOf_le_bcastOf : netOf m self ≤ bcastOf m self :=
  BitVec.le_trans (hm.netOf_le self) (hm.le_bcastOf self)

theorem IsPrefixMask.subnetAddrs_length : (subnetAddrs (netOf m self) (bcastOf m self)).length = 2 ^ (32 - cidr m) := by
  have := Nat.two_pow_pos (32 - cidr m)
  rw [Machine.subnetAddrs_length, hm.bcastOf_toNat]
  omega

/-- The subnet has one address exactly when the mask is the full one (42 R161). -/
theorem IsPrefixMask.netOf_eq_bcastOf_iff : netOf m self = bcastOf m self ↔ cidr m = 32 := by
  have hle := (cidr_spec m).1
  rw [BitVec.toNat_eq, hm.bcastOf_toNat]
  constructor
  · intro h
    by_contra hne
    have : 2 ^ 1 ≤ 2 ^ (32 - cidr m) := Nat.pow_le_pow_right (by omega) (by omega)
    omega
  · intro h
    simp [h]

/-- The closed form counts the siblings (42 R165): each removal takes away what the closed form subtracts for it. -/
theorem siblings_length : (siblings m self o).length = siblingCount m self o := by
  have hmem {x : Addr} := mem_subnetAddrs (x := x) (hm.netOf_le_bcastOf self)
  have hnodup := nodup_subnetAddrs (hm.netOf_le_bcastOf self)
  have hlen := hm.subnetAddrs_length self
  by_cases h : cidr m = 32
  · have hsingle := (hm.netOf_eq_bcastOf_iff self).mpr h
    rw [siblings_eq_filter, siblingCount_of_cidr_eq h]
    simp only [siblingExcluded, if_pos hsingle]
    cases o.includeSelf <;> simp [hlen, h]
  · have hne : netOf m self ≠ bcastOf m self := mt (hm.netOf_eq_bcastOf_iff self).mp h
    have hnet := hmem.mpr ⟨BitVec.le_refl _, hm.netOf_le_bcastOf self⟩
    have hbcast := hmem.mpr ⟨hm.netOf_le_bcastOf self, BitVec.le_refl _⟩
    have hself := hmem.mpr ⟨hm.netOf_le self, hm.le_bcastOf self⟩
    rw [siblings_eq_removeIf hne, length_removeIf (removeIf_nodup (removeIf_nodup hnodup _ _) _ _),
      length_removeIf (removeIf_nodup hnodup _ _), length_removeIf hnodup, hlen, siblingCount_of_cidr_ne h]
    simp [mem_removeIf, hnet, hbcast, hself, hne.symm, Bool.and_comm, Bool.and_left_comm, Bool.beq_eq_decide_eq]

end

theorem siblingCount_le (m : Mask) (self : Addr) (o : SibOpts) : siblingCount m self o ≤ 2 ^ 32 := by
  by_cases h : cidr m = 32
  · rw [siblingCount_of_cidr_eq h]
    exact (Bool.toNat_le _).trans (by decide)
  · rw [siblingCount_eq_sub h]
    exact (Nat.sub_le _ _).trans (Nat.pow_le_pow_right (by decide) (Nat.sub_le _ _))

/-- Settles O54: the count is at most 2^32, so `SR` holds it. -/
theorem siblingCountIsTheNumberOfSiblings : Obligations.SiblingCountIsTheNumberOfSiblings := by
  intro ma bb o s m a0 a1 a2 a3 hm hpm ha
  refine ⟨_, exec_scnt_ipv4 hm ha rfl, ?_⟩
  have hle := siblingCount_le m (addrOf a0 a1 a2 a3) o
  rw [siblings_length hpm, u32_eq_addrOf]
  exact (BitVec.toNat_ofNat _ _).trans (Nat.mod_eq_of_lt (by omega))

/-! ### Enumerations -/

/-- Settles O55: the iterator written is `Iter.start`. -/
theorem sstartBeginsAnEnumeration : Obligations.SstartBeginsAnEnumeration := by
  refine fun ma bb o => ⟨decode_commandWord (.sstart ma bb o) rfl, fun _ => exec_of_subnet_absent rfl,
    fun _ _ _ hm ha h4 => exec_of_subnet_notIpv4 rfl hm ha h4, ?_⟩
  rintro s m _ _ a0 a1 a2 a3 hm ha rfl rfl
  refine ⟨Iter.start m (addrOf a0 a1 a2 a3) o, ?_, rfl, rfl, rfl, rfl, BitVec.toNat_setWidth_of_le (by decide)⟩
  rw [exec_sstart_ipv4 hm ha rfl, u32_eq_addrOf]

section

variable {bd : RegIdx} {t : Iter} (hit : s.it = some t)
include hit

theorem exec_snext_of_within (hw : t.candidate.toNat ≤ t.bcast.toNat) :
    exec (.snext bd) s = .next { s with
      b := s.b.set bd (some (bytes4 (BitVec.ofNat 32 t.candidate.toNat))),
      it := some { t with cur := t.candidate + 1 }, st := s.st &&& 0xF8#8 } := by
  simp only [exec, execSnext, hit, (t.within_iff _).mpr hw, if_true, State.succeed, stOk_delivered, Cursor.setWidth_eq,
    State.writeB]

theorem exec_snext_of_beyond (hb : t.bcast.toNat < t.candidate.toNat) :
    exec (.snext bd) s = .next { s with
      it := some { t with cur := t.candidate }, st := (s.st &&& 0xF8#8) ||| 0x04#8 } := by
  have hw : ¬ t.within t.candidate = true := by rw [Iter.within_iff]; omega
  simp only [exec, execSnext, hit, hw, State.succeed, stOk_ended, Bool.false_eq_true, if_false]

end

/-- Settles O56: `c` is the candidate at which the loop stops. -/
theorem snextDeliversTheNextSibling : Obligations.SnextDeliversTheNextSibling := by
  refine fun bd => ⟨decode_commandWord (.snext bd) rfl, fun s h => exec_of_invalidArgument (if_pos h), fun s t hit ht => ?_⟩
  obtain ⟨hge, hle, hskipped, hstop⟩ := t.candidate_spec ht
  refine ⟨t.candidate.toNat, hge, hle, hskipped, fun hw => ⟨hstop hw, ?_⟩, fun hb => ?_⟩
  · obtain ⟨b0, b1, b2, b3, hval, hbytes⟩ := exists_addrOf (BitVec.ofNat 32 t.candidate.toNat)
    refine ⟨b0, b1, b2, b3, hval.symm, ?_⟩
    rw [exec_snext_of_within hit hw, hbytes, BitVec.ofNat_add, BitVec.ofNat_toNat, BitVec.setWidth_eq]; rfl
  · rw [exec_snext_of_beyond hit hb, BitVec.ofNat_toNat, BitVec.setWidth_eq]

end Sys2Proof.Machine
end

section
/-! Proofs: transfer and control (43 R190 to R195). A success writes one register, the latch, or, for `CLRE`, the error record
alone; a `BLD` longer than the longest buffer is an illegal word. -/

namespace Sys2Proof.Machine

variable {s : State}

/-! ### The error record -/

/-- Settles O23: `CLRE` keeps `EOS`, `ACT` and the reserved bit of `ST`. -/
theorem clreClearsTheErrorRecord : Obligations.ClreClearsTheErrorRecord := by
  refine ⟨decode_commandWord .clre rfl, fun s => ?_⟩
  rw [exec, execClre, stClearErrors_eq]

/-! ### Loading a buffer -/

theorem exists_decode_eq_error {cw : CmdWord} (h : IllegalWord cw) : ∃ e, decode cw = .error e := by
  cases hd : decode cw with
  | ok i => exact absurd h ((exists_decode_eq_ok_iff cw).mp ⟨i, hd⟩)
  | error e => exact ⟨e, rfl⟩

/-- `BLD` with `len` in 17..31 is no command (30 R92). -/
theorem illegalWord_bld (bd : RegIdx) {len : BitVec 5} (h : 16 < len.toNat) :
    IllegalWord (commandWord 0x02 bd 0 0 len.toNat 0 0) := by
  have hbd := bd.isLt
  have hlen := len.isLt
  have hword : (commandWord 0x02 bd 0 0 len.toNat 0 0).toNat = 2 * 2 ^ 26 + bd * 2 ^ 23 + len.toNat * 2 ^ 12 := by
    rw [commandWord, BitVec.toNat_ofNat]; omega
  refine .inr (.inr ?_)
  omega

theorem State.bufferOperand_length (s : State) (n : Nat) : (s.bufferOperand n).length = n := by
  rw [State.bufferOperand, List.length_map, List.length_range]

/-- The bytes of a buffer on `DIN`, from the top (20 R64). -/
theorem State.bufferOperand_getElem? (s : State) {n p : Nat} (h : p < n) :
    (s.bufferOperand n)[p]? = some (s.din.extractLsb' (120 - 8 * p) 8) := by
  rw [State.bufferOperand, List.getElem?_map, List.getElem?_range h]; rfl

/-- Settles O24: a length over 16 makes an illegal word; any other loads the buffer operand. -/
theorem bldLoadsTheBytesOfDin : Obligations.BldLoadsTheBytesOfDin := by
  refine fun bd len => ⟨fun h => ?tooLong, fun h => decode_commandWord (.bld bd len) (decide_eq_true h),
    fun s _ => ⟨_, s.succeed_writeB bd _, s.bufferOperand_length _, fun p => s.bufferOperand_getElem?⟩⟩
  case tooLong =>
    obtain ⟨e, hd⟩ := exists_decode_eq_error (illegalWord_bld bd h)
    refine ⟨⟨e, hd⟩, fun s din rest hin => ?_⟩
    rw [step_of_decode_error hin hd, State.raise_illegalCommand]

/-! ### Absent registers -/

/-- Settles O25: `BCLR` has no operand to check. -/
theorem bclrMakesABufferAbsent : Obligations.BclrMakesABufferAbsent := fun bd =>
  ⟨decode_commandWord (.bclr bd) rfl, fun s => s.succeed_writeB bd none⟩

/-- Settles O28: `MCLR` has no operand to check. -/
theorem mclrMakesAMaskAbsent : Obligations.MclrMakesAMaskAbsent := fun md =>
  ⟨decode_commandWord (.mclr md) rfl, fun s => s.succeed_writeM md none⟩

/-! ### The output latch -/

theorem State.succeed_writeDOUT (s : State) (a : List Byte) :
    (s.writeDOUT a).succeed =
      .next { s with dout := ⟨BitVec.ofNat 5 a.length, padLatch a⟩, st := s.st &&& 0xFC#8 } :=
  State.succeed_eq _

theorem exec_brd_present {ba : RegIdx} {a : List Byte} (ha : s.readB ba = some a) :
    exec (.brd ba) s =
      .next { s with dout := ⟨BitVec.ofNat 5 a.length, padLatch a⟩, st := s.st &&& 0xFC#8 } := by
  rw [exec, execBrd, State.needB_some ha, State.succeed_writeDOUT]

theorem exec_mrd_present {ma : RegIdx} {m : Mask} (hm : s.readM ma = some m) :
    exec (.mrd ma) s =
      .next { s with dout := ⟨4, padLatch (bytes4 m)⟩, st := s.st &&& 0xFC#8 } := by
  rw [exec, execMrd, State.needM_some hm, State.succeed_writeDOUT]; rfl

/-- Settles O26: the latch holds the padded buffer, whose length of at most 16 fits `DOUT.len`. -/
theorem brdCopiesABufferToTheLatch : Obligations.BrdCopiesABufferToTheLatch := by
  refine fun ba => ⟨decode_commandWord (.brd ba) rfl, fun s h => exec_of_invalidArgument (if_pos h),
    fun s a ha hlen => ⟨_, exec_brd_present ha, ?_, fun j => padLatch_getElem a j j.isLt⟩⟩
  exact (BitVec.toNat_ofNat _ _).trans (Nat.mod_eq_of_lt (by omega))

/-- The bytes of a 32-bit value, most significant first (00 R9). -/
theorem bytes4_getD (u : BitVec 32) {p : Nat} (h : p < 4) : (bytes4 u).getD p 0 = u.extractLsb' (24 - 8 * p) 8 := by
  interval_cases p <;> rfl

/-- Settles O27: the latch holds the padded bytes of the mask. -/
theorem mrdCopiesAMaskToTheLatch : Obligations.MrdCopiesAMaskToTheLatch := by
  refine fun ma => ⟨decode_commandWord (.mrd ma) rfl, fun s h => exec_of_invalidArgument (if_pos h),
    fun s m hm => ⟨_, exec_mrd_present hm, rfl, fun j => ?_⟩⟩
  exact (padLatch_getElem (bytes4 m) j j.isLt).trans (if_ctx_congr Iff.rfl (bytes4_getD m) fun _ => rfl)

end Sys2Proof.Machine
end

section
/-! Proofs: the errors of the commands (60 R212, R214). A failing command is the case `raise` of `CommandEffect`; every case of
it has a next state. -/

namespace Sys2Proof.Machine

variable {i : Instr} {s : State} {o : Outcome}

/-- Every command ends in a next state, failing or not (60 R214). -/
theorem CommandEffect.exists_next (he : CommandEffect i s o) : ∃ t, o = .next t := by
  cases he <;> exact ⟨_, rfl⟩

/-- `IllegalCommand` is for words that do not decode (30 R90): no row of the error table answers it. -/
theorem errorOf_ne_illegalCommand (i : Instr) (s : State) : errorOf i s ≠ some .illegalCommand := by
  fun_cases errorOf i s <;> nofun

/-- What `Unsupported` leaves: its code and its sticky flag (60 R214). -/
theorem exec_of_unsupported (herr : errorOf i s = some .unsupported) :
    exec i s = .next { s with st := (s.st &&& 0xFC#8) ||| 0x22#8 } := by
  rw [exec_of_error herr, State.raise_unsupported]

/-- A command that raises no error has a next state, with code 0 (10 R34). -/
theorem exec_of_safe (hok : Safe i s) : ∃ t, exec i s = .next t ∧ stCode t.st = 0 := by
  obtain ⟨t, h⟩ := (exec_effect i s).exists_next
  exact ⟨t, h, (exec_effect i s).code_of_safe h hok⟩

/-- Settles O13: a failing command is its `raise`, a safe one ends with code 0. -/
theorem failuresByCommandAndTheirEffect : Obligations.FailuresByCommandAndTheirEffect := fun i s =>
  ⟨exec_of_invalidArgument, exec_of_unsupported, errorOf_ne_illegalCommand i s, exec_of_safe⟩

end Sys2Proof.Machine
end

section
/-! Proofs: what one step can do, once for all events (20 R66, R70, R71): wait, reset, run a command, refuse a word. Every command
has a next state, so every step has one. -/

namespace Sys2Proof.Machine

variable {s : State} {o : Outcome}

/-- The outcomes open to a step in the state `s`, by what the host presents. Every statement about a step is a case split on this
relation. -/
inductive StepEffect (s : State) : Outcome → Prop where
  | wait (hin : s.inputs = []) : StepEffect s (.next s)
  | reset {rest : List HostEvent} (hin : s.inputs = .reset :: rest) :
      StepEffect s (.next { State.reset with inputs := rest })
  | run {cw : CmdWord} {din : DinWord} {rest : List HostEvent} {i : Instr} (hin : s.inputs = .command cw din :: rest)
      (hd : decode cw = .ok i) : StepEffect s (exec i { s with din := din, inputs := rest })
  | refuse {cw : CmdWord} {din : DinWord} {rest : List HostEvent} {e : DecodeError}
      (hin : s.inputs = .command cw din :: rest) (hd : decode cw = .error e) :
      StepEffect s (({ s with din := din, inputs := rest } : State).raise .illegalCommand)

/-- Settles O7: `step` finds the ports idle. -/
theorem stepWithNothingPresentedWaits : Obligations.StepWithNothingPresentedWaits := by
  intro s hin
  simp [step, State.sample, hin, execIdle]

theorem step_of_reset {rest : List HostEvent} (hin : s.inputs = .reset :: rest) :
    step s = .next { State.reset with inputs := rest } := by
  simp [step, State.sample, hin, execReset]

/-- Every step acts within its effect. -/
theorem step_effect (s : State) : StepEffect s (step s) := by
  match hin : s.inputs with
  | [] => rw [stepWithNothingPresentedWaits s hin]; exact .wait hin
  | .reset :: rest => rw [step_of_reset hin]; exact .reset hin
  | .command cw din :: rest =>
    cases hd : decode cw with
    | ok i => rw [stepRunsTheDecodedCommand cw din rest s i hin hd]; exact .run hin hd
    | error e => rw [step_of_decode_error hin hd]; exact .refuse hin hd

/-- A step ends in a next state: the one case that could not is a command's, and every command does. -/
theorem StepEffect.exists_next (he : StepEffect s o) : ∃ t, o = .next t := by
  cases he with
  | run => exact (exec_effect _ _).exists_next
  | wait | reset | refuse => exact ⟨_, rfl⟩

/-- Settles O8, by the cases of `StepEffect`. -/
theorem everyStepCompletes : Obligations.EveryStepCompletes := fun s => (step_effect s).exists_next

/-! ### The state after reset -/

@[simp] theorem State.readB_reset (inputs : List HostEvent) (j : RegIdx) :
    ({ State.reset with inputs := inputs } : State).readB j = none := by
  simp [State.readB, State.reset]

@[simp] theorem State.readM_reset (inputs : List HostEvent) (j : RegIdx) :
    ({ State.reset with inputs := inputs } : State).readM j = none := by
  simp [State.readM, State.reset]

theorem State.reset_doutData (j : Fin 16) : State.reset.dout.data[j] = 0 := by
  simp [State.reset]

/-- Settles O6: the state is `State.reset` but for the events still to come. -/
theorem resetLeavesTheSpecifiedState : Obligations.ResetLeavesTheSpecifiedState := fun _ rest hin =>
  ⟨_, step_of_reset hin, rfl, State.readB_reset rest, State.readM_reset rest, rfl, rfl, State.reset_doutData, rfl, rfl⟩

end Sys2Proof.Machine
end

section
/-! Proofs: the state invariant (10 R21, R28, R31 to R33, R41). A command is a chain of operand checks before a register write or
an error kind: each link has one rule, and the rules compose to every command. -/

namespace Sys2Proof.Machine

/-! ### The iterator -/

namespace Iter.Inv

variable {u : Iter} (hu : u.Inv)
include hu

/-- The subnet part of the invariant is about the fields that `SNEXT` leaves. -/
theorem with_cur {c : Cursor} (hge : u.net.toNat ≤ c.toNat) (hle : c.toNat ≤ u.bcast.toNat + 1) :
    ({ u with cur := c } : Iter).Inv :=
  { subnet := hu.subnet, self_ge := hu.self_ge, self_le := hu.self_le, cur_ge := hge, cur_le := hle }

theorem net_le_candidate : u.net.toNat ≤ u.candidate.toNat :=
  hu.cur_ge.trans (u.candidate_spec hu).1

/-- The loop passes over addresses of the subnet only, so it ends at most one beyond it. -/
theorem candidate_le : u.candidate.toNat ≤ u.bcast.toNat + 1 := by
  obtain ⟨hge, -, hskipped, -⟩ := u.candidate_spec hu
  rcases hge.eq_or_lt with heq | hlt
  · exact heq ▸ hu.cur_le
  · have := (hskipped (u.candidate.toNat - 1) (by omega) (by omega)).1
    omega

theorem at_candidate : ({ u with cur := u.candidate } : Iter).Inv :=
  hu.with_cur hu.net_le_candidate hu.candidate_le

end Iter.Inv

/-- Beyond a candidate of the subnet the counter has room: it is one bit wider than an address (10 R40). -/
theorem Iter.candidate_succ_toNat {u : Iter} (hw : u.candidate.toNat ≤ u.bcast.toNat) :
    (u.candidate + 1).toNat = u.candidate.toNat + 1 := by
  have hb := u.bcast.isLt
  rw [BitVec.toNat_add, show (1 : Cursor).toNat = 1 from rfl, Nat.mod_eq_of_lt (by omega)]

theorem Iter.Inv.past_candidate {u : Iter} (hu : u.Inv) (hw : u.candidate.toNat ≤ u.bcast.toNat) :
    ({ u with cur := u.candidate + 1 } : Iter).Inv := by
  have hge := hu.net_le_candidate
  have hsucc := Iter.candidate_succ_toNat hw
  exact hu.with_cur (by omega) (by omega)

/-! ### Writes -/

namespace State.Inv

variable {s : State} (hs : s.Inv)
include hs

theorem writeB {j : RegIdx} {v : Option (List Byte)} (hv : ∀ a, v = some a → a.length ≤ 16) : (s.writeB j v).Inv :=
  { hs with
    buffers := fun k a hk => by
      rw [State.readB_writeB] at hk
      split at hk
      · exact hv a hk
      · exact hs.buffers k a hk }

theorem writeM {j : RegIdx} {w : Option Mask} (hw : ∀ m, w = some m → IsPrefixMask m) : (s.writeM j w).Inv :=
  { hs with
    masks := fun k m hk => by
      rw [State.readM_writeM] at hk
      split at hk
      · exact hw m hk
      · exact hs.masks k m hk }

theorem writeSR {n : Nat} (hn : n ≤ 2 ^ 32) : (s.writeSR n).Inv :=
  { hs with sr := (BitVec.toNat_ofNat n 64).trans_le ((Nat.mod_le _ _).trans hn) }

theorem writeDOUT {a : List Byte} (ha : a.length ≤ 16) : (s.writeDOUT a).Inv := by
  have hlen : (s.writeDOUT a).dout.len.toNat = a.length := (BitVec.toNat_ofNat _ _).trans (Nat.mod_eq_of_lt (by omega))
  exact { hs with
    doutLen := by rwa [hlen]
    doutTail := fun j hj => (padLatch_getElem a j j.isLt).trans (if_neg (by omega)) }

/-- `ST` may be written as long as bit 7 and `ACT` stay (10 R33). -/
theorem with_st {st : Status} (hres : st.getLsbD 7 = s.st.getLsbD 7) (hact : stAct st = stAct s.st) :
    ({ s with st := st } : State).Inv :=
  { hs with reserved := hres.trans hs.reserved, act := hact.trans hs.act }

/-- The iterator may be written as long as `ACT` is set with it (10 R33, R41). -/
theorem with_it {u : Iter} {st : Status} (hu : u.Inv) (hres : st.getLsbD 7 = s.st.getLsbD 7) (hact : stAct st = true) :
    ({ s with it := some u, st := st } : State).Inv :=
  { hs with
    reserved := hres.trans hs.reserved
    act := hact
    iter := fun _ hit => Option.some.inj hit ▸ hu }

/-- What is sampled from the ports is no part of the invariant. -/
theorem with_hostSide (din : DinWord) (inputs : List HostEvent) :
    ({ s with din := din, inputs := inputs } : State).Inv :=
  { hs with }

theorem act_of_iter {u : Iter} (hit : s.it = some u) : stAct s.st = true := by
  rw [hs.act, hit, Option.isSome_some]

end State.Inv

/-! ### Outcomes -/

/-- The outcome's state, if it has one, meets the invariant. -/
def KeepsInv (o : Outcome) : Prop := ∀ t, o = .next t → t.Inv

theorem KeepsInv.next {t : State} (h : t.Inv) : KeepsInv (.next t) := by
  rintro _ ⟨⟩
  exact h

namespace State.Inv

variable {s : State} (hs : s.Inv)
include hs

theorem succeed : KeepsInv s.succeed := .next (hs.with_st (reserved_stOk _) (stAct_stOk _))

theorem raise (k : ErrorKind) : KeepsInv (s.raise k) :=
  .next (hs.with_st (reserved_stFail _ k) (stAct_stFail _ k))

theorem needB {i : RegIdx} {k : List Byte → Outcome} (hk : ∀ a, a.length ≤ 16 → KeepsInv (k a)) :
    KeepsInv (s.needB i k) := by
  rcases s.needB_cases i k with ⟨-, e⟩ | ⟨a, ha, e⟩ <;> rw [e]
  · exact hs.raise _
  · exact hk a (hs.buffers i a ha)

theorem needM {i : RegIdx} {k : Mask → Outcome} (hk : ∀ m, IsPrefixMask m → KeepsInv (k m)) :
    KeepsInv (s.needM i k) := by
  rcases s.needM_cases i k with ⟨-, e⟩ | ⟨m, hm, e⟩ <;> rw [e]
  · exact hs.raise _
  · exact hk m (hs.masks i m hm)

theorem needSubnet {mi bi : RegIdx} {k : Mask → Addr → Outcome} (hk : ∀ m a, IsPrefixMask m → KeepsInv (k m a)) :
    KeepsInv (s.needSubnet mi bi k) :=
  hs.needM fun m hm => hs.needB fun a _ => by
    split
    · exact hk m _ hm
    · exact hs.raise _

/-! A success that writes a present value, or the scalar result, or the latch. -/

theorem succeed_writeB {j : RegIdx} {a : List Byte} (ha : a.length ≤ 16) : KeepsInv (s.writeB j (some a)).succeed :=
  (hs.writeB fun _ hb => Option.some.inj hb ▸ ha).succeed

theorem succeed_writeM {j : RegIdx} {m : Mask} (hm : IsPrefixMask m) : KeepsInv (s.writeM j (some m)).succeed :=
  (hs.writeM fun _ hw => Option.some.inj hw ▸ hm).succeed

theorem succeed_writeSR {n : Nat} (hn : n ≤ 2 ^ 32) : KeepsInv (s.writeSR n).succeed := (hs.writeSR hn).succeed

theorem succeed_writeDOUT {a : List Byte} (ha : a.length ≤ 16) : KeepsInv (s.writeDOUT a).succeed :=
  (hs.writeDOUT ha).succeed

theorem combineB (f : Byte → Byte → Byte) (bd ba bb : RegIdx) : KeepsInv (s.combineB f bd ba bb) :=
  hs.needB fun a ha => hs.needB fun b hb =>
    hs.succeed_writeB ((combine_length f a b).trans_le (max_le ha hb))

end State.Inv

/-! ### Commands -/

section

variable {s : State} (hs : s.Inv)
include hs

theorem execMfc_keepsInv (md : RegIdx) : KeepsInv (execMfc md s) := by
  dsimp only [execMfc]
  split
  · exact hs.raise _
  · exact hs.succeed_writeM (isPrefixMask_cidrmask (by omega))

theorem execMfb_keepsInv (md ba : RegIdx) : KeepsInv (execMfb md ba s) := by
  refine hs.needB fun a _ => ?_
  split
  · exact hs.raise _
  · next h4 =>
    split
    · next hv => exact hs.succeed_writeM (isPrefixMask_of_validMask (not_not.mp h4) hv)
    · exact hs.raise _

/-- The absent mask is the identity of `MOR` (41 R138), so the union is absent or a prefix mask. -/
theorem isPrefixMask_of_orMasks {ma mb : RegIdx} {m : Mask} (h : orMasks (s.readM ma) (s.readM mb) = some m) :
    IsPrefixMask m := by
  cases ha : s.readM ma with
  | none =>
    rw [ha] at h
    exact hs.masks mb m h
  | some a =>
    cases hb : s.readM mb with
    | none =>
      rw [hb, orMasks_none_right] at h
      exact hs.masks ma m h
    | some b =>
      rw [ha, hb] at h
      exact Option.some.inj h ▸ (hs.masks ma a ha).or (hs.masks mb b hb)

theorem execSstart_keepsInv (ma bb : RegIdx) (f : SibOpts) : KeepsInv (execSstart ma bb f s) :=
  hs.needSubnet fun _ a hm => (hs.with_it (Iter.start_inv hm a f)
    ((reserved_stSetEos _ _).trans (reserved_stSetAct _ _)) ((stAct_stSetEos _ _).trans (stAct_stSetAct _ _))).succeed

theorem execSnext_keepsInv (bd : RegIdx) : KeepsInv (execSnext bd s) := by
  dsimp only [execSnext]
  split
  · exact hs.raise _
  · next u hit =>
    have hu := hs.iter u hit
    have hact (v : Bool) : stAct (stSetEos s.st v) = true := (stAct_stSetEos _ v).trans (hs.act_of_iter hit)
    split
    · next hw =>
      have hb : (s.writeB bd (some (bytes4 (u.candidate.setWidth 32)))).Inv :=
        hs.writeB fun _ ha => Option.some.inj ha ▸ by simp
      exact (hb.with_it (hu.past_candidate ((u.within_iff _).mp hw)) (reserved_stSetEos _ _) (hact _)).succeed
    · exact (hs.with_it hu.at_candidate (reserved_stSetEos _ _) (hact _)).succeed

/-- Every command of 30 R88 keeps the invariant; `BLD` does because its length is at most 16 (30 R92). -/
theorem exec_keepsInv {i : Instr} (hwf : i.WellFormed) : KeepsInv (exec i s) := by
  have hbool (v : Bool) : v.toNat ≤ 2 ^ 32 := v.toNat_le.trans (by decide)
  cases i with
  | clre => exact .next (hs.with_st (reserved_stClearErrors _) (stAct_stClearErrors _))
  | bld bd len => exact hs.succeed_writeB ((s.bufferOperand_length _).trans_le (of_decide_eq_true hwf))
  | bclr => exact (hs.writeB (v := none) nofun).succeed
  | brd => exact hs.needB fun _ => hs.succeed_writeDOUT
  | mrd => exact hs.needM fun m _ => hs.succeed_writeDOUT (a := bytes4 m) (by simp)
  | mclr => exact (hs.writeM (w := none) nofun).succeed
  | band | bor | bxor => exact hs.combineB _ _ _ _
  | bnot => exact hs.needB fun _ ha => hs.succeed_writeB ((List.length_map _).trans_le ha)
  | cntl ba v =>
    exact hs.needB fun a ha => hs.succeed_writeSR (by have := (countLeading_spec a v).1; omega)
  | cntt ba v =>
    exact hs.needB fun a ha => hs.succeed_writeSR (by have := (countTrailing_spec a v).1; omega)
  | bvalid => exact hs.needB fun _ _ => hs.succeed_writeSR (hbool _)
  | mfc md => exact execMfc_keepsInv hs md
  | mfb md ba => exact execMfb_keepsInv hs md ba
  | memp => exact hs.succeed_writeM (isPrefixMask_cidrmask (n := 0) (by decide))
  | mcidr => exact hs.needM fun m _ => hs.succeed_writeSR ((cidr_spec m).1.trans (by decide))
  | mtb => exact hs.needM fun m _ => hs.succeed_writeB (a := bytes4 m) (by simp)
  | mand => exact hs.needM fun _ ha => hs.needM fun _ hb => hs.succeed_writeM (ha.and hb)
  | mor => exact (hs.writeM fun _ => isPrefixMask_of_orMasks hs).succeed
  | mext | mabr => exact hs.needM fun _ _ => hs.succeed_writeM (isPrefixMask_clampMask _)
  | meq => exact hs.needM fun _ _ => hs.needM fun _ _ => hs.succeed_writeSR (hbool _)
  | npfx => rw [exec, execNpfx]; exact hs.needSubnet fun _ _ _ => hs.succeed_writeB (by simp)
  | hostid => rw [exec, execHostid]; exact hs.needSubnet fun _ _ _ => hs.succeed_writeB (by simp)
  | scnt => rw [exec, execScnt]; exact hs.needSubnet fun _ _ _ => hs.succeed_writeSR (siblingCount_le _ _ _)
  | sstart ma bb f => exact execSstart_keepsInv hs ma bb f
  | snext bd => exact execSnext_keepsInv hs bd

end

/-! ### Steps and runs -/

/-- Settles O9: every register is absent, there is no iterator, and every other field is 0. -/
theorem resetMeetsTheStateInvariant : Obligations.ResetMeetsTheStateInvariant := by
  intro inputs
  exact {
    masks := by simp
    buffers := by simp
    sr := Nat.zero_le _
    doutLen := Nat.zero_le _
    doutTail := fun j _ => State.reset_doutData j
    reserved := show (0 : Status).getLsbD 7 = false by decide
    act := show stAct 0 = false by decide
    iter := fun _ hit => nomatch hit }

/-- Only a word that decodes is run, so its command is well formed (30 R89). -/
theorem StepEffect.keepsInv {s : State} {o : Outcome} (hs : s.Inv) (he : StepEffect s o) : KeepsInv o := by
  cases he with
  | wait => exact .next hs
  | reset => exact .next (resetMeetsTheStateInvariant _)
  | run _ hd => exact exec_keepsInv (hs.with_hostSide _ _) (encodeOfDecodeReturnsTheWord _ _ hd).2
  | refuse => exact (hs.with_hostSide _ _).raise _

/-- Settles O10, by the cases of `StepEffect`, a command's by `exec_keepsInv`. -/
theorem everyStepKeepsTheStateInvariant : Obligations.EveryStepKeepsTheStateInvariant := fun s t hs =>
  (step_effect s).keepsInv hs t

theorem Reachable.inv {s : State} (h : Reachable s) : s.Inv := by
  induction h with
  | reset inputs => exact resetMeetsTheStateInvariant inputs
  | step _ ht ih => exact everyStepKeepsTheStateInvariant _ _ ih ht

/-- Settles O11: the invariant gives a length, `cidrmask_inj` that there is no other. -/
theorem reachableMasksAreValid : Obligations.ReachableMasksAreValid := by
  intro s hr i m hm
  obtain ⟨n, hn, hval⟩ := hr.inv.masks i m hm
  exact ⟨n, ⟨hn, hval⟩, fun k ⟨hk, hval'⟩ => cidrmask_inj hk hn (hval'.symm.trans hval)⟩

/-- The low bits of a value are those of its remainder by a power of two. -/
theorem getLsbD_of_toNat_mod {x : Addr} {h r j : Nat} (hx : x.toNat % 2 ^ h = r) (hj : j < h) :
    x.getLsbD j = r.testBit j := by
  rw [← hx, Nat.testBit_mod_two_pow, decide_eq_true hj, Bool.true_and, BitVec.testBit_toNat]

/-- The subnet of an active iterator, bit by bit: its low bits are 0 in `net` and 1 in `bcast` (10 R41). -/
theorem Iter.Inv.host_bits {u : Iter} (hu : u.Inv) :
    ∃ h, h ≤ 32 ∧ u.bcast.toNat - u.net.toNat = 2 ^ h - 1 ∧
      ∀ j, j < h → u.net.getLsbD j = false ∧ u.bcast.getLsbD j = true := by
  obtain ⟨h, hh, hnet, hbcast⟩ := hu.subnet
  have hrest : u.bcast.toNat % 2 ^ h = 2 ^ h - 1 := by
    rw [hbcast, Nat.add_mod, hnet, Nat.zero_add, Nat.mod_mod, Nat.mod_eq_of_lt (Nat.sub_one_lt (Nat.two_pow_pos h).ne')]
  refine ⟨h, hh, by omega, fun j hj => ⟨?_, ?_⟩⟩
  · rw [getLsbD_of_toNat_mod hnet hj, Nat.zero_testBit]
  · rw [getLsbD_of_toNat_mod hrest hj, Nat.testBit_two_pow_sub_one, decide_eq_true hj]

/-- Settles O12: the invariant of a reachable state, its subnet read bit by bit. -/
theorem reachableIteratorsAreInTheirSubnet : Obligations.ReachableIteratorsAreInTheirSubnet := by
  intro s hr u hit
  have hu := hr.inv.iter u hit
  exact ⟨hu.self_ge, hu.self_le, hu.cur_ge, hu.cur_le, hu.host_bits⟩

end Sys2Proof.Machine
end

section
/-! Proofs: the laws of the bitwise family (40 R117, R121) and the round trips of masks (41 R144). -/

namespace Sys2Proof.Machine

variable {s : State}

/-! ### Commutativity and lengths -/

/-- A combination of two buffers by a commutative operation reads them in either order, also when one is absent. -/
theorem State.combineB_comm {f : Byte → Byte → Byte} (hf : ∀ x y, f x y = f y x) (s : State) (bd ba bb : RegIdx) :
    s.combineB f bd ba bb = s.combineB f bd bb ba := by
  unfold State.combineB
  rcases ha : s.readB ba with _ | a <;> rcases hb : s.readB bb with _ | b <;> simp [ha, hb, combine_comm hf]

/-- The shape shared by `BAND`, `BOR` and `BXOR`: what the destination reads afterwards (40 R121). -/
theorem State.combineB_reads {f : Byte → Byte → Byte} {bd ba bb : RegIdx} {a b : List Byte}
    (ha : s.readB ba = some a) (hb : s.readB bb = some b) :
    ∃ t r, s.combineB f bd ba bb = .next t ∧ t.readB bd = some r ∧ r.length = max a.length b.length := by
  obtain ⟨t, ht, hd, -, -⟩ := s.succeed_writeB_reads bd (some (combine f a b))
  exact ⟨t, _, by rw [State.combineB, State.needB_some ha, State.needB_some hb, ht], hd, combine_length f a b⟩

theorem exec_bnot_reads {bd ba : RegIdx} {a : List Byte} (ha : s.readB ba = some a) :
    ∃ t, exec (.bnot bd ba) s = .next t ∧ t.readB bd = some (a.map fun x => ~~~x) := by
  obtain ⟨t, ht, hd, -, -⟩ := s.succeed_writeB_reads bd (some (a.map fun x => ~~~x))
  exact ⟨t, by rw [exec, execBnot, State.needB_some ha, ht], hd⟩

theorem map_not_map_not (a : List Byte) : ((a.map fun x => ~~~x).map fun x => ~~~x) = a := by
  simp [Function.comp_def]

/-- Settles O36: the three combinations share `State.combineB`, and the last clause is the bound on the two runs. -/
theorem bitwiseFamilyLaws : Obligations.BitwiseFamilyLaws := by
  refine ⟨fun bd ba bb s => ⟨s.combineB_comm BitVec.and_comm bd ba bb, s.combineB_comm BitVec.or_comm bd ba bb,
    s.combineB_comm BitVec.xor_comm bd ba bb⟩, ?lengths, ?complement, fun a v hlen => ?counts,
    fun a => ⟨leading_trailing_le a, leading_trailing_eq_iff a⟩⟩
  case lengths =>
    rintro bd ba bb s a b ha hb _ (rfl | rfl | rfl) <;> exact State.combineB_reads ha hb
  case complement =>
    intro bd be ba s a ha
    obtain ⟨t, ht, hd⟩ := exec_bnot_reads (bd := bd) ha
    obtain ⟨u, hu, he⟩ := exec_bnot_reads (bd := be) hd
    exact ⟨t, u, _, ht, hd, List.length_map _, hu, he.trans (congrArg some (map_not_map_not a))⟩
  case counts =>
    have hlead := (countLeading_spec a v).1
    have htrail := (countTrailing_spec a v).1
    omega

/-! ### Valid patterns -/

/-- A 4-byte buffer is valid exactly when its value is a prefix mask (40 R117). -/
theorem validMask_bytes_iff (b0 b1 b2 b3 : Byte) :
    validMask [b0, b1, b2, b3] = true ↔ IsPrefixMask (addrOf b0 b1 b2 b3) := by
  rw [validMask_iff, ← bytes4_addrOf, onesThenZeros_bytes4]

theorem cidr_addrOf (b0 b1 b2 b3 : Byte) : cidr (addrOf b0 b1 b2 b3) = countLeading [b0, b1, b2, b3] true := by
  rw [cidr_eq_countLeading, bytes4_addrOf]

/-- Settles O37: the leading ones of the four bytes are the `cidr` of their value, which `cidrmask` inverts. -/
theorem validFourByteBuffersArePrefixMasks : Obligations.ValidFourByteBuffersArePrefixMasks := by
  refine ⟨fun a => ⟨(validMask_iff a).trans (leading_trailing_eq_iff a).symm, validMask_iff a⟩,
    fun b0 b1 b2 b3 => ⟨validMask_bytes_iff b0 b1 b2 b3, fun n hn hval => ?_⟩⟩
  rw [← cidr_addrOf, hval, cidr_cidrmask n hn]

/-! ### Round trips -/

/-- A length of 0..32 on `DIN[31:0]` is the scalar operand (20 R65): bit 31 is 0. -/
theorem State.scalarOperand_of_length {c : Nat} (hc : c ≤ 32) (hdin : s.din.extractLsb' 0 32 = BitVec.ofNat 32 c) :
    s.scalarOperand = c := by
  rw [State.scalarOperand, hdin, BitVec.toInt_ofNat', Int.bmod_eq_of_le (by omega) (by omega)]

/-- `MFC` then `MCIDR` (41 R144). -/
theorem exec_mcidr_of_mfc (md : RegIdx) {c : Nat} (hc : c ≤ 32)
    (hdin : s.din.extractLsb' 0 32 = BitVec.ofNat 32 c) :
    ∃ t u, exec (.mfc md) s = .next t ∧ exec (.mcidr md) t = .next u ∧ u.sr.toNat = c := by
  have hop := State.scalarOperand_of_length hc hdin
  have hmask : (s.writeM md (some (cidrmask s.scalarOperand.toNat))).readM md = some (cidrmask c) := by
    rw [State.readM_writeM_self, hop, Int.toNat_natCast]
  refine ⟨_, _, exec_mfc_inRange (by omega) (by omega), exec_mcidr_present hmask, ?_⟩
  rw [cidr_cidrmask c hc]
  exact (BitVec.toNat_ofNat _ _).trans (Nat.mod_eq_of_lt (by omega))

theorem stCode_and (st : Status) : stCode (st &&& 0xFC#8) = 0 := by
  rw [← stOk_eq, stCode_stOk]

/-- `MTB` then `MFB` (41 R144). -/
theorem exec_mfb_of_mtb (bd ms md : RegIdx) {m : Mask} (hm : s.readM ms = some m) (hpm : IsPrefixMask m) :
    ∃ t u, exec (.mtb bd ms) s = .next t ∧ exec (.mfb md bd) t = .next u ∧ stCode u.st = 0 ∧ u.readM md = some m := by
  obtain ⟨b0, b1, b2, b3, rfl, hbytes⟩ := exists_addrOf m
  have hbuf : (s.writeB bd (some (bytes4 (addrOf b0 b1 b2 b3)))).readB bd = some [b0, b1, b2, b3] := by
    rw [State.readB_writeB_self, hbytes]
  have hpat : OnesThenZeros [b0, b1, b2, b3] := hbytes ▸ (onesThenZeros_bytes4 _).mpr hpm
  exact ⟨_, _, exec_mtb_present hm, exec_mfb_valid hbuf hpat, stCode_and _, State.readM_writeM_self ..⟩

/-- Settles O49: the two round trips. -/
theorem maskRoundTrips : Obligations.MaskRoundTrips :=
  ⟨fun md _ _ => exec_mcidr_of_mfc md, fun bd ms md _ _ => exec_mfb_of_mtb bd ms md⟩

end Sys2Proof.Machine
end

section
/-! Proofs: the sequence law (42 R168). What an iterator has still to deliver is a list in ascending order; each `SNEXT` takes its
head, and the list of a fresh iterator is that of the siblings. -/

namespace Sys2Proof.Machine

/-! ### The siblings in order -/

section

variable {m : Mask} (hm : IsPrefixMask m) (self : Addr) (o : SibOpts)
include hm

theorem mem_siblings {x : Addr} : x ∈ siblings m self o ↔
    netOf m self ≤ x ∧ x ≤ bcastOf m self ∧ ¬ SiblingExcluded (netOf m self) (bcastOf m self) self o x := by
  rw [siblings_eq_filter, List.mem_filter, mem_subnetAddrs (hm.netOf_le_bcastOf self), Bool.not_eq_true',
    ← Bool.not_eq_true, siblingExcluded_iff, and_assoc]

theorem pairwise_lt_siblings : (siblings m self o).Pairwise (fun x y => x < y) :=
  (pairwise_lt_subnetAddrs (hm.netOf_le_bcastOf self)).filter _

end

/-! ### What an iterator has still to deliver -/

/-- The addresses of the subnet from `cur` on that are not excluded, in ascending order. -/
def Iter.remaining (u : Iter) : List Addr :=
  (subnetAddrs u.net u.bcast).filter fun x =>
    decide (u.cur.toNat ≤ x.toNat) && !siblingExcluded u.net u.bcast u.self u.opts x

/-- A candidate of the subnet is an address. -/
theorem Iter.candidate_addr_toNat {u : Iter} (hw : u.candidate.toNat ≤ u.bcast.toNat) :
    (BitVec.ofNat 32 u.candidate.toNat).toNat = u.candidate.toNat := by
  have hb := u.bcast.isLt
  rw [BitVec.toNat_ofNat, Nat.mod_eq_of_lt (by omega)]

namespace Iter.Inv

variable {u : Iter} (hu : u.Inv)
include hu

theorem net_le_bcast : u.net ≤ u.bcast := hu.self_ge.trans hu.self_le

theorem mem_remaining {x : Addr} : x ∈ u.remaining ↔
    u.cur.toNat ≤ x.toNat ∧ x ≤ u.bcast ∧ ¬ SiblingExcluded u.net u.bcast u.self u.opts x := by
  have hnet : u.cur.toNat ≤ x.toNat → u.net ≤ x := hu.cur_ge.trans
  rw [Iter.remaining, List.mem_filter, mem_subnetAddrs hu.net_le_bcast, Bool.and_eq_true, decide_eq_true_iff,
    Bool.not_eq_true', ← Bool.not_eq_true, siblingExcluded_iff]
  tauto

theorem pairwise_lt_remaining : u.remaining.Pairwise (fun x y => x < y) :=
  (pairwise_lt_subnetAddrs hu.net_le_bcast).filter _

theorem remaining_of_beyond (hb : u.bcast.toNat < u.candidate.toNat) : u.remaining = [] := by
  have hout : u.within u.candidate = false := by
    rw [← Bool.not_eq_true, Iter.within_iff]; omega
  refine List.eq_nil_iff_forall_not_mem.mpr fun x hx => ?_
  obtain ⟨hcur, hbcast, hexcl⟩ := hu.mem_remaining.mp hx
  exact hexcl (hu.exhausted_iff.mp hout x hcur hbcast)

section

variable (hw : u.candidate.toNat ≤ u.bcast.toNat)
include hw

/-- What is left after the candidate is delivered. -/
theorem mem_remaining_past {x : Addr} : x ∈ ({ u with cur := u.candidate + 1 } : Iter).remaining ↔
    u.candidate.toNat < x.toNat ∧ x ≤ u.bcast ∧ ¬ SiblingExcluded u.net u.bcast u.self u.opts x := by
  rw [(hu.past_candidate hw).mem_remaining, Iter.candidate_succ_toNat hw, Nat.succ_le_iff]

/-- No address from `cur` to before the candidate is left: the loop has passed over each. -/
theorem mem_remaining_iff_of_within {x : Addr} : x ∈ u.remaining ↔
    x = BitVec.ofNat 32 u.candidate.toNat ∨ x ∈ ({ u with cur := u.candidate + 1 } : Iter).remaining := by
  obtain ⟨hge, -, hskipped, hstop⟩ := u.candidate_spec hu
  have hc : (BitVec.ofNat 32 u.candidate.toNat).toNat = u.candidate.toNat := Iter.candidate_addr_toNat hw
  rw [hu.mem_remaining, hu.mem_remaining_past hw]
  constructor
  · rintro ⟨hcur, hbcast, hexcl⟩
    rcases Nat.lt_trichotomy x.toNat u.candidate.toNat with hlt | heq | hgt
    · have hx := (hskipped x.toNat hcur hlt).2
      rw [BitVec.ofNat_toNat, BitVec.setWidth_eq] at hx
      exact absurd hx hexcl
    · exact .inl (BitVec.eq_of_toNat_eq (heq.trans hc.symm))
    · exact .inr ⟨hgt, hbcast, hexcl⟩
  · rintro (rfl | ⟨hgt, hbcast, hexcl⟩)
    · exact ⟨hge.trans_eq hc.symm, hc.trans_le hw, hstop hw⟩
    · exact ⟨hge.trans hgt.le, hbcast, hexcl⟩

/-- The candidate is the least of what is left. -/
theorem remaining_of_within :
    u.remaining = BitVec.ofNat 32 u.candidate.toNat :: ({ u with cur := u.candidate + 1 } : Iter).remaining := by
  refine hu.pairwise_lt_remaining.eq_of_mem_iff
    ((hu.past_candidate hw).pairwise_lt_remaining.cons fun x hx => ?_)
    fun x => (hu.mem_remaining_iff_of_within hw).trans List.mem_cons.symm
  rw [BitVec.lt_def, Iter.candidate_addr_toNat hw]
  exact ((hu.mem_remaining_past hw).mp hx).1

end

end Iter.Inv

/-- Nothing of the subnet lies before the start (42 R166). -/
theorem remaining_start {m : Mask} (hm : IsPrefixMask m) (self : Addr) (o : SibOpts) :
    (Iter.start m self o).remaining = siblings m self o := by
  have hu := Iter.start_inv hm self o
  have hcur : (Iter.start m self o).cur.toNat = (netOf m self).toNat := BitVec.toNat_setWidth_of_le (by decide)
  refine hu.pairwise_lt_remaining.eq_of_mem_iff (pairwise_lt_siblings hm self o) fun x => ?_
  rw [hu.mem_remaining, hcur, mem_siblings hm]
  rfl

/-! ### Deliveries -/

section

variable {s t : State} {bd : RegIdx} (h : exec (.snext bd) s = .next t) (n : Nat)
include h

theorem deliveries_of_ended (heos : stEos t.st = true) : deliveries bd (n + 1) s = [] := by
  rw [deliveries, h]
  exact if_pos heos

theorem deliveries_of_delivered (heos : stEos t.st = false) :
    deliveries bd (n + 1) s = t.readB bd :: deliveries bd n t := by
  rw [deliveries, h]
  exact if_neg (Bool.eq_false_iff.mp heos)

end

section

variable {s : State} {u : Iter} (hit : s.it = some u) (bd : RegIdx) (n : Nat)
include hit

theorem deliveries_of_beyond (hb : u.bcast.toNat < u.candidate.toNat) : deliveries bd (n + 1) s = [] :=
  deliveries_of_ended (exec_snext_of_beyond hit hb) n (by rw [← stOk_ended, stEos_stOk, stEos_stSetEos])

theorem deliveries_of_within (hw : u.candidate.toNat ≤ u.bcast.toNat) :
    ∃ t : State, t.it = some { u with cur := u.candidate + 1 } ∧
      deliveries bd (n + 1) s = some (bytes4 (BitVec.ofNat 32 u.candidate.toNat)) :: deliveries bd n t := by
  have hdel := deliveries_of_delivered (exec_snext_of_within (bd := bd) hit hw) n
    (by rw [← stOk_delivered, stEos_stOk, stEos_stSetEos])
  exact ⟨_, rfl, hdel.trans (congrArg (· :: _) (s.readB_writeB_self bd _))⟩

end

/-- Any run of `SNEXT` commands longer than what the iterator has left delivers just that (42 R168). -/
theorem deliveries_eq_remaining (bd : RegIdx) (n : Nat) (s : State) (u : Iter) (hit : s.it = some u) (hu : u.Inv)
    (hn : u.remaining.length < n) : deliveries bd n s = u.remaining.map fun x => some (bytes4 x) := by
  induction n generalizing s u with
  | zero => omega
  | succ n ih =>
    rcases Nat.lt_or_ge u.bcast.toNat u.candidate.toNat with hb | hw
    · rw [deliveries_of_beyond hit bd _ hb, hu.remaining_of_beyond hb, List.map_nil]
    · obtain ⟨t, ht, hdel⟩ := deliveries_of_within hit bd n hw
      have hrem := hu.remaining_of_within hw
      rw [hrem, List.length_cons] at hn
      rw [hdel, hrem, List.map_cons, ih t _ ht (hu.past_candidate hw) (by omega)]

/-- Settles O57: the fresh iterator has the siblings to deliver, and O54 gives their number. -/
theorem enumerationDeliversTheSiblingsInOrder : Obligations.EnumerationDeliversTheSiblingsInOrder := by
  rintro ma bb o s m _ _ _ a0 a1 a2 a3 hm hpm ha rfl rfl rfl
  refine ⟨fun _ => mem_siblings hpm _ o, pairwise_lt_siblings hpm _ o,
    ⟨_, exec_sstart_ipv4 hm ha rfl, fun bd n hn => ?_⟩,
    siblingCountIsTheNumberOfSiblings ma bb o s m a0 a1 a2 a3 hm hpm ha⟩
  rw [← remaining_start hpm] at hn ⊢
  rw [← u32_eq_addrOf] at hn ⊢
  exact deliveries_eq_remaining bd n _ _ rfl (Iter.start_inv hpm _ o) hn

end Sys2Proof.Machine
end
